-- ==== Sys2Proof/Word.lean ====
section
/-! DEFINITION. The two word types of the frame engine: a byte (R7) and a 32-bit command, result or window word (R27, R28, R31). -/
namespace Sys2Proof

/-- A byte is 8 bits (R7). -/
abbrev Byte := BitVec 8

/-- A command word, a result word, or a register of the host window: 32 bits (R27, R28, R31). -/
abbrev Word := BitVec 32

end Sys2Proof
end

