-- ==== Sys2Proof/Syntax.lean ====
section
/-! DEFINITION. The frame engine's instructions: the host commands of R81, one constructor per row of the opcode table.
Every operand has exactly the width its field has in R83 to R86, so every term is an instruction some word encodes. -/
namespace Sys2Proof

/-- A host command (R81). -/
inductive Instr where
  /-- `TX`, format T (R83, R140): destination short address and payload length -/
  | tx (dest : BitVec 16) (plen : BitVec 8)
  /-- `TXRAW`, format W (R84, R141): the two length prefix bytes -/
  | txraw (hlen flen : BitVec 8)
  /-- `TXRES`, format N (R82, R142) -/
  | txres
  /-- `RXWHOLE`, format B (R85, R163): first `HBUF` index and capacity -/
  | rxwhole (dst cap : BitVec 9)
  /-- `RXCHUNK.ABORT`, format B with `ABORT = 1` (R89, R164): `FIRST`, `DST`, `CAP` are ignored, and kept (log 11) -/
  | rxchunkAbort (first : Bool) (dst cap : BitVec 9)
  /-- `RXCHUNK.FIRST`, format B with `ABORT = 0`, `FIRST = 1` (R89, R165) -/
  | rxchunkFirst (dst cap : BitVec 9)
  /-- `RXCHUNK.NEXT`, format B with `ABORT = 0`, `FIRST = 0` (R89, R166) -/
  | rxchunkNext (dst cap : BitVec 9)
  /-- `POLL`, format N (R82, R190) -/
  | poll
  /-- `RDS`, format A (R86, R129): all 11 bits of `ADDR`, of which the command uses `ADDR[5:0]` -/
  | rds (addr : BitVec 11)
  /-- `WRS`, format A (R86, R130) -/
  | wrs (addr : BitVec 11) (data : BitVec 8)
  /-- `RDL`, format A (R86, R131) -/
  | rdl (addr : BitVec 11)
  /-- `WRL`, format A (R86, R132) -/
  | wrl (addr : BitVec 11) (data : BitVec 8)
deriving DecidableEq, Repr

end Sys2Proof
end

