-- ==== Sys2Proof/WellFormed.lean ====
section
/-! DEFINITION. The assembler's lines (R104, R105, R110) with operands as written, and the check that each operand fits its
field (R104: an operand that does not fit is an assembly error). An `Instr` needs no check: its types carry the widths. -/
namespace Sys2Proof

/-- One line of an FE program in the syntax of R104, R105 and R110, its numbers as written. -/
inductive AsmLine where
  | tx (dest plen : Nat)
  | txraw (hlen flen : Nat)
  | txres
  | rxwhole (dst cap : Nat)
  | rxchunkFirst (dst cap : Nat)
  | rxchunkNext (dst cap : Nat)
  /-- `rxchunk.abort` without operands (R104) -/
  | rxchunkAbort
  /-- `rxchunk.abort DST, CAP`: the operands go into the ignored fields (R105) -/
  | rxchunkAbortOps (dst cap : Nat)
  /-- `rxchunk DST, CAP, FIRST, ABORT` (R105) -/
  | rxchunk (dst cap first abort : Nat)
  | poll
  | rds (addr : Nat)
  | wrs (addr data : Nat)
  | rdl (addr : Nat)
  | wrl (addr data : Nat)
  /-- `.word V`: a 32-bit value verbatim, legal or not (R105) -/
  | word (v : Nat)
  /-- `setpan ID` (R110) -/
  | setpan (id : Nat)
  /-- `setsaddr ADDR16` (R110) -/
  | setsaddr (addr : Nat)
  /-- `hbuf I, b0, b1, ...`: host writes, no command (R110) -/
  | hbuf (i : Nat) (bytes : List Nat)
deriving DecidableEq, Repr

/-- `v` fits a field of `n` bits. -/
def fits (n v : Nat) : Bool := v < 2 ^ n

/-- Every operand fits its field (R104; the field widths are those of R83 to R86). DESIGN CHOICE, safe (log 13): an `hbuf` line
has no encoding field, and it is refused when its start index is 512 or more or one of its bytes is 256 or more; R53 would also
allow taking that index mod 512. -/
def AsmLine.wellFormed : AsmLine → Bool
  | .tx dest plen => fits 16 dest && fits 8 plen
  | .txraw hlen flen => fits 8 hlen && fits 8 flen
  | .txres => true
  | .rxwhole dst cap => fits 9 dst && fits 9 cap
  | .rxchunkFirst dst cap => fits 9 dst && fits 9 cap
  | .rxchunkNext dst cap => fits 9 dst && fits 9 cap
  | .rxchunkAbort => true
  | .rxchunkAbortOps dst cap => fits 9 dst && fits 9 cap
  | .rxchunk dst cap first abort => fits 9 dst && fits 9 cap && fits 1 first && fits 1 abort
  | .poll => true
  | .rds addr => fits 11 addr
  | .wrs addr data => fits 11 addr && fits 8 data
  | .rdl addr => fits 11 addr
  | .wrl addr data => fits 11 addr && fits 8 data
  | .word v => fits 32 v
  | .setpan id => fits 16 id
  | .setsaddr addr => fits 16 addr
  | .hbuf i bytes => fits 9 i && bytes.all (fits 8)

end Sys2Proof
end

