-- ==== Sys2Proof/Decode.lean ====
section
/-! DEFINITION. From bytes and words to instructions and back: the byte order of a command word (R31), the fields of the
formats (R82 to R86), the decoder (R81, R88, R89), and after it the encoder written from the same tables. -/
namespace Sys2Proof

/-! ## Byte order of a word towards the host (R31: little-endian) -/

/-- The four bytes of a word, lowest address first. -/
def wordBytes (w : Word) : List Byte :=
  [w.extractLsb' 0 8, w.extractLsb' 8 8, w.extractLsb' 16 8, w.extractLsb' 24 8]

/-- The word whose bytes, lowest address first, are `b0 b1 b2 b3`. -/
def wordOfBytes (b0 b1 b2 b3 : Byte) : Word := b3 ++ b2 ++ b1 ++ b0

/-! ## Fields of a command word (R80, R82 to R86) -/

/-- `OP`, bits 3:0 (R80). -/
def fieldOp (w : Word) : BitVec 4 := w.extractLsb' 0 4
/-- `FL`, bits 7:4 (R80). -/
def fieldFl (w : Word) : BitVec 4 := w.extractLsb' 4 4
/-- `DEST`, bits 31:16 of format T (R83). -/
def fieldDest (w : Word) : BitVec 16 := w.extractLsb' 16 16
/-- `PLEN`, bits 15:8 of format T (R83). -/
def fieldPlen (w : Word) : BitVec 8 := w.extractLsb' 8 8
/-- `HLEN`, bits 15:8 of format W (R84). -/
def fieldHlen (w : Word) : BitVec 8 := w.extractLsb' 8 8
/-- `FLEN`, bits 23:16 of format W (R84). -/
def fieldFlen (w : Word) : BitVec 8 := w.extractLsb' 16 8
/-- `DST`, bits 16:8 of format B (R85). -/
def fieldDst (w : Word) : BitVec 9 := w.extractLsb' 8 9
/-- `CAP`, bits 25:17 of format B (R85). -/
def fieldCap (w : Word) : BitVec 9 := w.extractLsb' 17 9
/-- `FIRST`, bit 4 of format B (R85). -/
def fieldFirst (w : Word) : Bool := w.getLsbD 4
/-- `ABORT`, bit 5 of format B (R85). -/
def fieldAbort (w : Word) : Bool := w.getLsbD 5
/-- `ADDR`, bits 18:8 of format A (R86). -/
def fieldAddr (w : Word) : BitVec 11 := w.extractLsb' 8 11
/-- `DATA`, bits 31:24 of format A (R86). -/
def fieldData (w : Word) : BitVec 8 := w.extractLsb' 24 8

/-! ## Reserved bits of the formats (R82 to R86, R88): each must be all 0 -/

/-- Format N: bits 31:4 (R82). -/
def reservedN (w : Word) : Bool := w.extractLsb' 4 28 == 0#28
/-- Format T: `FL` (R83). -/
def reservedT (w : Word) : Bool := fieldFl w == 0#4
/-- Format W: bits 31:24 and `FL` (R84). -/
def reservedW (w : Word) : Bool := w.extractLsb' 24 8 == 0#8 && fieldFl w == 0#4
/-- Format B as `RXWHOLE` uses it: bits 31:26, 7:6, and `ABORT` and `FIRST` (R85). -/
def reservedBWhole (w : Word) : Bool := w.extractLsb' 26 6 == 0#6 && fieldFl w == 0#4
/-- Format B as `RXCHUNK` uses it: bits 31:26 and 7:6 (R85). -/
def reservedBChunk (w : Word) : Bool := w.extractLsb' 26 6 == 0#6 && w.extractLsb' 6 2 == 0#2
/-- Format A as the reads use it: `DATA`, bits 23:19 and `FL` (R86). -/
def reservedARead (w : Word) : Bool := w.extractLsb' 19 13 == 0#13 && fieldFl w == 0#4
/-- Format A as the writes use it: bits 23:19 and `FL` (R86). -/
def reservedAWrite (w : Word) : Bool := w.extractLsb' 19 5 == 0#5 && fieldFl w == 0#4

/-! ## The decoder -/

/-- Why a word or a byte sequence is no command. -/
inductive DecodeError where
  /-- `OP` is 0x0, 0x7 or 0xC to 0xF (R88) -/
  | unassignedOpcode
  /-- a reserved bit of the opcode's format is set (R88) -/
  | reservedBits
  /-- fewer than the four bytes of a command word (R80) -/
  | truncated
deriving DecidableEq, Repr

/-- The instruction `i` when its format's reserved bits are 0 (R88). -/
def checked (ok : Bool) (i : Instr) : Except DecodeError Instr :=
  if ok then .ok i else .error .reservedBits

/-- Which form of `RXCHUNK` the bits `ABORT` and `FIRST` select; `ABORT` is tested first (R89). -/
def chunkForm (w : Word) : Instr :=
  if fieldAbort w then .rxchunkAbort (fieldFirst w) (fieldDst w) (fieldCap w)
  else if fieldFirst w then .rxchunkFirst (fieldDst w) (fieldCap w)
  else .rxchunkNext (fieldDst w) (fieldCap w)

/-- The command a word encodes (R81), or why it is illegal (R88). Total. -/
def decode (w : Word) : Except DecodeError Instr :=
  match (fieldOp w).toNat with
  | 0x1 => checked (reservedT w) (.tx (fieldDest w) (fieldPlen w))
  | 0x2 => checked (reservedW w) (.txraw (fieldHlen w) (fieldFlen w))
  | 0x3 => checked (reservedN w) .txres
  | 0x4 => checked (reservedBWhole w) (.rxwhole (fieldDst w) (fieldCap w))
  | 0x5 => checked (reservedBChunk w) (chunkForm w)
  | 0x6 => checked (reservedN w) .poll
  | 0x8 => checked (reservedARead w) (.rds (fieldAddr w))
  | 0x9 => checked (reservedAWrite w) (.wrs (fieldAddr w) (fieldData w))
  | 0xA => checked (reservedARead w) (.rdl (fieldAddr w))
  | 0xB => checked (reservedAWrite w) (.wrl (fieldAddr w) (fieldData w))
  | _ => .error .unassignedOpcode

/-- The first command of a byte sequence, its word little-endian (R31), and the bytes after it. Total. -/
def decodeBytes : List Byte → Except DecodeError (Instr × List Byte)
  | b0 :: b1 :: b2 :: b3 :: rest =>
    match decode (wordOfBytes b0 b1 b2 b3) with
    | .ok i => .ok (i, rest)
    | .error e => .error e
  | _ => .error .truncated

/-- What the decoder reads from an instruction whose bits, numbered as the opcode table numbers them, are the low `nbits`
bits of `w`: the word laid out as its four bytes, lowest first, and given to `decodeBytes`. -/
def decodeTableWord (nbits w : Nat) : Option Instr :=
  match decodeBytes (wordBytes (BitVec.ofNat 32 (w % 2 ^ nbits))) with
  | .ok (i, _) => some i
  | .error _ => none

/-! ## The encoder (R81 to R86, R89) -/

/-- Format N (R82). -/
def encodeN (op : BitVec 4) : Word := 0#28 ++ op
/-- Format T (R83). -/
def encodeT (dest : BitVec 16) (plen : BitVec 8) : Word := dest ++ plen ++ 0x0#4 ++ 0x1#4
/-- Format W (R84). -/
def encodeW (hlen flen : BitVec 8) : Word := 0#8 ++ flen ++ hlen ++ 0x0#4 ++ 0x2#4
/-- Format B (R85). -/
def encodeB (op : BitVec 4) (abort first : Bool) (dst cap : BitVec 9) : Word :=
  0#6 ++ cap ++ dst ++ 0#2 ++ BitVec.ofBool abort ++ BitVec.ofBool first ++ op
/-- Format A (R86). -/
def encodeA (op : BitVec 4) (addr : BitVec 11) (data : BitVec 8) : Word :=
  data ++ 0#5 ++ addr ++ 0x0#4 ++ op

/-- The word that encodes a command. -/
def encode : Instr → Word
  | .tx dest plen => encodeT dest plen
  | .txraw hlen flen => encodeW hlen flen
  | .txres => encodeN 0x3#4
  | .rxwhole dst cap => encodeB 0x4#4 false false dst cap
  | .rxchunkAbort first dst cap => encodeB 0x5#4 true first dst cap
  | .rxchunkFirst dst cap => encodeB 0x5#4 false true dst cap
  | .rxchunkNext dst cap => encodeB 0x5#4 false false dst cap
  | .poll => encodeN 0x6#4
  | .rds addr => encodeA 0x8#4 addr 0#8
  | .wrs addr data => encodeA 0x9#4 addr data
  | .rdl addr => encodeA 0xA#4 addr 0#8
  | .wrl addr data => encodeA 0xB#4 addr data

end Sys2Proof
end

