-- ==== Sys2Proof/Config.lean ====
section
/-! DEFINITION. What an implementation fixes and what it leaves open: bus locations and events (R50, R58), the parameters of
R6 with the spec's defaults, and the free values (constants without a body). -/
namespace Sys2Proof

/-- A location of the radio: the two disjoint spaces `SHORT` (6 bits) and `LONG` (11 bits) of R50.
The types carry the masks of R51 and R52. -/
inductive BusAddr where
  /-- an on-chip control register, one framing byte -/
  | short (a : BitVec 6)
  /-- a long control register or FIFO byte, two framing bytes -/
  | long (a : BitVec 11)
deriving DecidableEq, Repr

/-- One bus transaction as the bus trace records it (R58). -/
inductive BusEvent where
  /-- `Rd(space, addr, data)`: a read, `data` the radio's answer -/
  | rd (loc : BusAddr) (data : Byte)
  /-- `Wr(space, addr, data)`: a write of `data` -/
  | wr (loc : BusAddr) (data : Byte)
deriving DecidableEq, Repr

/-- The parameters of R6 that an implementation fixes.
A field's default is the value R6 gives it; the model carries the record in the state, so that a claim about every state
is a claim about every choice of parameters (log 2). -/
structure Params where
  aPanidl   : BitVec 6 := 0x01#6
  aPanidh   : BitVec 6 := 0x02#6
  aSadrl    : BitVec 6 := 0x03#6
  aSadrh    : BitVec 6 := 0x04#6
  aRxflush  : BitVec 6 := 0x0D#6
  bRxflush  : Fin 8 := 0
  aTxncon   : BitVec 6 := 0x1B#6
  bTxntrig  : Fin 8 := 0
  bTxnackreq : Fin 8 := 2
  aTxstat   : BitVec 6 := 0x24#6
  bTxnstat  : Fin 8 := 0
  bCcafail  : Fin 8 := 5
  aIntstat  : BitVec 6 := 0x31#6
  bTxnif    : Fin 8 := 0
  bRxif     : Fin 8 := 3
  bSecif    : Fin 8 := 4
  aBbreg1   : BitVec 6 := 0x39#6
  bRxdecinv : Fin 8 := 2
  aTxnfifo  : BitVec 11 := 0x000#11
  aRxfifo   : BitVec 11 := 0x300#11
  fcf0      : Byte := 0x61#8
  fcf1      : Byte := 0x88#8
  readDummy : Byte := 0x00#8
deriving DecidableEq, Repr

/-- The default of every parameter (R6). -/
def Params.default : Params := {}

/-- `HDR_LEN`: the length of the synthesised MAC header (R6, R101). -/
def Config.hdrLen : Byte := 9#8

/-- `HBUF_SIZE`: bytes of host buffer (R6, R29). -/
def Config.hbufSize : Nat := 512

/-- `SEQ_INIT`: OPEN, any 8-bit value (R6, R36, D19). No body, so no proof can see its value (log 3). -/
opaque Config.seqInit : Byte

/-- `RADIO`: the byte the radio answers to a read of `loc` when the bus trace so far is `trace` (R57, D33).
No body: any byte (log 5). -/
opaque Config.radioByte (trace : List BusEvent) (loc : BusAddr) : Byte

/-- The byte the host's `n`-th read of an `HBUF` byte nothing has written returns: the spec states none (log 8).
No body: any byte. -/
opaque Config.unwrittenByte (n : Nat) : Byte

end Sys2Proof
end

