-- ==== Sys2Proof/Machine/State.lean ====
section
/-! DEFINITION. The frame engine's state (R20 to R29, R58) with the agents beside it as plain data (R57, R70, R21), the
reasons a step can stop (R220), and the state after reset (R36). -/
namespace Sys2Proof.Machine

/-- Sparse memory: (address, byte) pairs in rising order of address, one entry an address. -/
abbrev Memory := List Host.Cell

/-- The reference radio model RRM of R70 and R71, used by the spec's test vectors only: the short and long arrays (an
unlisted byte is 0x00), and how many flushes and transmissions were counted. -/
structure Rrm where
  rs : Memory
  rl : Memory
  flushes : Nat
  transmissions : Nat
deriving DecidableEq, Repr

/-- The radio agent that answers bus reads (R57). -/
inductive Radio where
  /-- the oracle `RADIO`: any byte, seen through `Config.radioByte` -/
  | oracle
  /-- the reference radio model, for the spec's test vectors (R57, R70) -/
  | reference (m : Rrm)
deriving DecidableEq, Repr

/-- One access of the host to the register window of R31, at a byte offset of 10 bits (R50). -/
inductive HostAct where
  /-- a write: the low 8 bits of `v` at an `HBUF` offset, all 32 at a register's -/
  | write (off : BitVec 10) (v : Word)
  /-- a read -/
  | read (off : BitVec 10)
deriving DecidableEq, Repr

/-- The state of the frame engine and of the agents beside it. -/
structure State where
  /-- the parameters of R6, which no step changes (log 2) -/
  par : Params
  /-- `SEQ` (R22) -/
  seq : Byte
  /-- `SESS_OPEN` (R23): true is Receiving, false is Idle -/
  sessOpen : Bool
  /-- `SESS_REM` (R24) -/
  sessRem : Byte
  /-- `SESS_CUR` (R25) -/
  sessCur : BitVec 11
  /-- `SESS_LQI` (R26) -/
  sessLqi : Byte
  /-- `SESS_RSSI` (R26) -/
  sessRssi : Byte
  /-- `RESULT` (R27) -/
  result : Word
  /-- `BUSY` (R28) -/
  busy : Bool
  /-- `HBUF` (R29): an unlisted index is a byte nothing has written (R36, R220) -/
  hbuf : Memory
  /-- the bus trace (R58), in issue order -/
  trace : List BusEvent
  /-- the radio (R57), an agent outside the FE -/
  radio : Radio
  /-- the host's pending window accesses, in order (R21); the model's own (log 1) -/
  host : List HostAct
  /-- what the host's last read returned; the model's own (log 9) -/
  hostData : Word
  /-- how many free values have been used; the model's own (log 8) -/
  freeCount : Nat
deriving DecidableEq, Repr

/-- The reasons a step stops. -/
inductive Fault where
  /-- `UNWRITTEN_HBUF` (R220(a), D36): raised by TX and TXRAW when they read an `HBUF` byte that no host write and no FE
  write has written since reset. Safe: the chip would transmit an unknown byte. -/
  | unwrittenHbuf
  /-- R220(b): raised by a host write of `CMD`, or a host access to `HBUF`, while `BUSY = 1`; the spec gives the model no
  move there. Safe: no run goes on from it. -/
  | hostWhileBusy
deriving DecidableEq, Repr

/-- The reasons an instruction is refused. -/
inductive Refusal where
  /-- raised by an arm of `exec` whose instruction has no meaning yet; no arm does. Safe. -/
  | notModelled (mnemonic : String)
deriving DecidableEq, Repr

/-- What a step answers. -/
abbrev Out := Host.Outcome State Fault Refusal

/-- The machine right after reset (R36, R230, R231): idle, no session, nothing in `HBUF`, no transaction issued.
`SESS_LQI` and `SESS_RSSI`, which R36 leaves unspecified, are 0 (log 4); the host has nothing pending (log 1). -/
def State.reset : State where
  par := Params.default
  seq := Config.seqInit
  sessOpen := false
  sessRem := 0#8
  sessCur := 0#11
  sessLqi := 0#8
  sessRssi := 0#8
  result := 0#32
  busy := false
  hbuf := []
  trace := []
  radio := .oracle
  host := []
  hostData := 0#32
  freeCount := 0

end Sys2Proof.Machine
end

