-- ==== Sys2Proof/Machine/Flags.lean ====
section
/-! DEFINITION. Status codes and the result word (R90, R91), the event flags of POLL (R92, R190), and the classification of
a transmission (R142). The FE keeps no condition flags (R30). -/
namespace Sys2Proof.Machine

/-- The status codes a command can end with (R91). -/
inductive Status where
  | ok | bufferTooSmall | channelBusy | ioFailure | aborted | sessionOpen | noSession | illegalCommand
deriving DecidableEq, Repr

/-- The numeric code of a status (R91). -/
def statusCode : Status → BitVec 4
  | .ok => 0#4
  | .bufferTooSmall => 1#4
  | .channelBusy => 2#4
  | .ioFailure => 3#4
  | .aborted => 4#4
  | .sessionOpen => 5#4
  | .noSession => 6#4
  | .illegalCommand => 7#4

/-- The result word (R90): `STATUS` in bits 3:0, bits 7:4 zero, `B0` in 15:8, `B1` in 23:16, `B2` in 31:24. -/
def resultWord (st : Status) (b0 b1 b2 : Byte) : Word := b2 ++ b1 ++ b0 ++ 0#4 ++ statusCode st

/-- The event flags in `RESULT.B0` after POLL (R92, R190): bit 0 `ReceiveReady`, bit 1 `TransmitDone`, bit 2
`SecurityEvent`; the other bits of the interrupt status are dropped (R192). -/
def eventFlags (p : Params) (s : Byte) : Byte :=
  0#5 ++ BitVec.ofBool (s.getLsbD p.bSecif) ++ BitVec.ofBool (s.getLsbD p.bTxnif) ++ BitVec.ofBool (s.getLsbD p.bRxif)

/-- The outcome of the last transmission, from the transmit status byte (R142, R205). -/
def txOutcome (p : Params) (s : Byte) : Status :=
  if s.getLsbD p.bTxnstat = false then .ok
  else if s.getLsbD p.bCcafail = true then .channelBusy
  else .ioFailure

end Sys2Proof.Machine
end

