-- ==== Sys2Proof/Machine/Ops.lean ====
section
/-! DEFINITION. The shared operations: sparse memory, the radio's answers, bus transactions (R9, R54, R57, R58), the bit and
buffer primitives (R120 to R128), `HBUF` (R53), and how a command ends (R8, R10, R27). -/
namespace Sys2Proof.Machine

/-! ## Sparse memory -/

/-- The byte at an address, if one is listed. -/
def Memory.read : Memory → Nat → Option Byte
  | [], _ => none
  | (k, v) :: m, a => if k = a then some v else Memory.read m a

/-- Writes a byte, keeping the addresses rising. -/
def Memory.write : Memory → Nat → Byte → Memory
  | [], a, b => [(a, b)]
  | (k, v) :: m, a, b =>
    if a < k then (a, b) :: (k, v) :: m
    else if a = k then (a, b) :: m
    else (k, v) :: Memory.write m a b

/-- Takes an address out of the list. -/
def Memory.erase : Memory → Nat → Memory
  | [], _ => []
  | (k, v) :: m, a => if k = a then m else (k, v) :: Memory.erase m a

/-- Addresses rise strictly, from `lo` on. -/
def Memory.rising : Nat → Memory → Bool
  | _, [] => true
  | lo, (k, _) :: m => decide (lo ≤ k) && Memory.rising (k + 1) m

/-- The canonical form of `HBUF`: addresses rise strictly and are indices of the buffer (R29). An unlisted index is a byte
nothing has written, so any listed byte differs from it. -/
def Memory.wf (m : Memory) : Bool := m.rising 0 && m.all (fun c => decide (c.1 < Config.hbufSize))

/-- Reading an array of the reference radio: an unlisted byte is 0x00 (R70). -/
def Memory.readZ (m : Memory) (a : Nat) : Byte := (m.read a).getD 0#8

/-- Writing an array of the reference radio: the byte an unlisted address reads as is not listed. -/
def Memory.writeZ (m : Memory) (a : Nat) (b : Byte) : Memory := if b = 0#8 then m.erase a else m.write a b

/-- The canonical form of an array of the reference radio of `n` bytes: addresses rise strictly, are in range, and no listed
byte is 0x00. -/
def Memory.wfZ (n : Nat) (m : Memory) : Bool := m.rising 0 && m.all (fun c => decide (c.1 < n) && c.2 != 0#8)

/-! ## The radio -/

/-- Bit `b` of a byte set, all others clear. -/
def bitMask (b : Fin 8) : Byte := 1#8 <<< b.val

/-- The byte with bit `b` set (R120). -/
def byteSetBit (v : Byte) (b : Fin 8) : Byte := v ||| bitMask b

/-- The byte with bit `b` clear (R121). -/
def byteClearBit (v : Byte) (b : Fin 8) : Byte := v &&& ~~~ (bitMask b)

/-- What the reference radio answers to a read (R70). -/
def Rrm.answer (m : Rrm) : BusAddr → Byte
  | .short a => m.rs.readZ a.toNat
  | .long a => m.rl.readZ a.toNat

/-- The reference radio's counters count a write of `v` when its bit `b` is set (R71). -/
def countIf (v : Byte) (b : Fin 8) (n : Nat) : Nat := if v.getLsbD b then n + 1 else n

/-- The reference radio after a transaction (R70, R71). -/
def Rrm.observe (p : Params) (m : Rrm) : BusEvent → Rrm
  | .rd (.short a) _ => if a = p.aIntstat then { m with rs := m.rs.writeZ a.toNat 0#8 } else m
  | .rd (.long _) _ => m
  | .wr (.short a) v =>
    if a = p.aRxflush then
      { m with rs := m.rs.writeZ a.toNat (byteClearBit v p.bRxflush), flushes := countIf v p.bRxflush m.flushes }
    else if a = p.aTxncon then
      { m with
        rs := m.rs.writeZ a.toNat (byteClearBit v p.bTxntrig)
        transmissions := countIf v p.bTxntrig m.transmissions }
    else { m with rs := m.rs.writeZ a.toNat v }
  | .wr (.long a) v => { m with rl := m.rl.writeZ a.toNat v }

/-- The byte the radio answers to a read of `loc` after the bus trace `trace` (R57). -/
def Radio.answer (r : Radio) (trace : List BusEvent) (loc : BusAddr) : Byte :=
  match r with
  | .oracle => Config.radioByte trace loc
  | .reference m => m.answer loc

/-- The radio after a transaction. -/
def Radio.observe (r : Radio) (p : Params) (e : BusEvent) : Radio :=
  match r with
  | .oracle => .oracle
  | .reference m => .reference (m.observe p e)

/-! ## Bus transactions -/

/-- The byte the radio would answer now to a read of `loc` (R57). -/
def State.radioAnswer (s : State) (loc : BusAddr) : Byte := s.radio.answer s.trace loc

/-- Issues one bus transaction: it is appended to the bus trace (R58) and the radio sees it (R65). -/
def State.issue (s : State) (e : BusEvent) : State :=
  { s with trace := s.trace ++ [e], radio := s.radio.observe s.par e }

/-- Issues transactions in order. -/
def State.issueAll (s : State) (es : List BusEvent) : State := es.foldl State.issue s

/-- `MemRead(space, a, 1)` (R9): the byte the radio answers, and the state after the transaction. -/
def State.memRead (s : State) (loc : BusAddr) : Byte × State :=
  let v := s.radioAnswer loc
  (v, s.issue (.rd loc v))

/-- `MemWrite(space, a, 1, v)` (R9). -/
def State.memWrite (s : State) (loc : BusAddr) (v : Byte) : State := s.issue (.wr loc v)

/-- `SetBit(a, b)` (R120): a read transaction, then a write transaction. -/
def State.setBit (s : State) (a : BitVec 6) (b : Fin 8) : State :=
  let r := s.memRead (.short a)
  r.2.memWrite (.short a) (byteSetBit r.1 b)

/-- `ClearBit(a, b)` (R121). -/
def State.clearBit (s : State) (a : BitVec 6) (b : Fin 8) : State :=
  let r := s.memRead (.short a)
  r.2.memWrite (.short a) (byteClearBit r.1 b)

/-- `RxDisable()` (R122). -/
def State.rxDisable (s : State) : State := s.setBit s.par.aBbreg1 s.par.bRxdecinv
/-- `RxEnable()` (R123). -/
def State.rxEnable (s : State) : State := s.clearBit s.par.aBbreg1 s.par.bRxdecinv
/-- `RxFlush()` (R124). -/
def State.rxFlush (s : State) : State := s.setBit s.par.aRxflush s.par.bRxflush
/-- `TxTrigger()` (R125). -/
def State.txTrigger (s : State) : State := s.setBit s.par.aTxncon s.par.bTxntrig
/-- `TxAckReq()` (R126). -/
def State.txAckReq (s : State) : State := s.setBit s.par.aTxncon s.par.bTxnackreq

/-- `HBUF[i] <- v` (R8, R53: an index is 9 bits, so sums of indices wrap mod 512). -/
def State.hbufWrite (s : State) (i : BitVec 9) (v : Byte) : State := { s with hbuf := s.hbuf.write i.toNat v }

/-- `WriteBuf(a, bytes)` (R127): long writes at consecutive addresses, mod 2048. -/
def State.writeBuf (s : State) (a : BitVec 11) : List Byte → State
  | [] => s
  | v :: vs => State.writeBuf (s.memWrite (.long a) v) (a + 1#11) vs

/-- `ReadBuf(a, n, d)` (R128): long reads at consecutive addresses, each byte put into `HBUF` before the next read. -/
def State.readBuf (s : State) (a : BitVec 11) (d : BitVec 9) : Nat → State
  | 0 => s
  | n + 1 =>
    let r := s.memRead (.long a)
    State.readBuf (r.2.hbufWrite d r.1) (a + 1#11) (d + 1#9) n

/-! ## How a command ends -/

/-- `RESULT <- {STATUS, B0, B1, B2}` (R8, R90), a command's last action (R27); `BUSY` is 0 from this write on (R28). -/
def State.putResult (s : State) (st : Status) (b0 b1 b2 : Byte) : State :=
  { s with result := resultWord st b0 b1 b2, busy := false }

/-- TAKING AN EXCEPTION (R10, R200, R210): `raise <STATUS>(info)` writes the result register and changes nothing else.
No state is saved and control goes nowhere (R210), and there is no return (R211). -/
def State.raise (s : State) (st : Status) (info : Byte) : State := s.putResult st info 0#8 0#8

end Sys2Proof.Machine
end

