-- ==== Sys2Proof/Machine/Operands.lean ====
section
/-! DEFINITION. The operand forms of the commands: the short address in `ADDR` (R51, R86), the bytes a transmit command takes
from `HBUF` (R83, R84), and the header it synthesises (R101). Other operands are plain unsigned fields (R87). -/
namespace Sys2Proof.Machine

/-- The short address RDS and WRS use: `ADDR[5:0]`, the other bits dropped (R51, R86, D39). -/
def shortAddr (addr : BitVec 11) : BitVec 6 := addr.extractLsb' 0 6

/-- `HBUF[i], HBUF[i+1], ...`, `n` bytes, indices mod 512 (R53); none when one of them was never written (R220). -/
def hbufSlice (m : Memory) (i : BitVec 9) : Nat → Option (List Byte)
  | 0 => some []
  | n + 1 =>
    match m.read i.toNat, hbufSlice m (i + 1#9) n with
    | some b, some bs => some (b :: bs)
    | _, _ => none

/-- The synthesised MAC header, 9 bytes (R101): frame control, sequence number, destination PAN id, destination and source
short address, each 16-bit field low byte first (R59). -/
def macHeader (p : Params) (seq pL pH : Byte) (dest : BitVec 16) (sL sH : Byte) : List Byte :=
  [p.fcf0, p.fcf1, seq, pL, pH, dest.extractLsb' 0 8, dest.extractLsb' 8 8, sL, sH]

end Sys2Proof.Machine
end

