-- ==== Sys2Proof/Machine/Bus.lean ====
section
/-! DEFINITION. The register-access commands RDS, WRS, RDL, WRL (R129 to R132). -/
namespace Sys2Proof.Machine

/-- RDS (R129): read a short register. -/
def execRds (addr : BitVec 11) (s : State) : Out :=
  let r := s.memRead (.short (shortAddr addr))
  .next (r.2.putResult .ok r.1 0#8 0#8)

/-- WRS (R130): write a short register. -/
def execWrs (addr : BitVec 11) (data : BitVec 8) (s : State) : Out :=
  .next ((s.memWrite (.short (shortAddr addr)) data).putResult .ok 0#8 0#8 0#8)

/-- RDL (R131): read a long register or FIFO byte. -/
def execRdl (addr : BitVec 11) (s : State) : Out :=
  let r := s.memRead (.long addr)
  .next (r.2.putResult .ok r.1 0#8 0#8)

/-- WRL (R132): write a long register or FIFO byte. -/
def execWrl (addr : BitVec 11) (data : BitVec 8) (s : State) : Out :=
  .next ((s.memWrite (.long addr) data).putResult .ok 0#8 0#8 0#8)

end Sys2Proof.Machine
end

