-- ==== Sys2Proof/Machine/Events.lean ====
section
/-! DEFINITION. The event decoder: POLL (R190 to R192). -/
namespace Sys2Proof.Machine

/-- POLL (R190): one read of the interrupt status, which the radio clears by that read (R62, R191), decoded into the event
flags. -/
def execPoll (s : State) : Out :=
  let r := s.memRead (.short s.par.aIntstat)
  .next (r.2.putResult .ok (eventFlags s.par r.1) 0#8 0#8)

end Sys2Proof.Machine
end

