-- ==== Sys2Proof/Machine/Receive.lean ====
section
/-! DEFINITION. The receive engine and its partial-reception state machine: `Finish`, `Drain`, RXWHOLE and the three forms of
RXCHUNK (R160 to R166). -/
namespace Sys2Proof.Machine

/-- One read at the session's cursor, which then advances by 1 mod 2048 (R25, R161, R162). -/
def State.readCursor (s : State) : Byte × State :=
  let r := s.memRead (.long s.sessCur)
  (r.1, { r.2 with sessCur := s.sessCur + 1#11 })

/-- `Finish()` (R162): the trailer pair is read and recorded, the FIFO flushed, reception re-enabled, the session closed. -/
def State.finish (s : State) : State :=
  let lqi := s.readCursor
  let rssi := lqi.2.readCursor
  let s1 := { rssi.2 with sessLqi := lqi.1, sessRssi := rssi.1 }
  let s2 := s1.rxFlush.rxEnable
  { s2 with sessOpen := false }.putResult .ok 0#8 lqi.1 rssi.1

/-- The copy loop of `Drain` (R161): `n` bytes from the FIFO at the cursor into `HBUF` from index `p`. -/
def State.drainBytes (s : State) (p : BitVec 9) : Nat → State
  | 0 => s
  | n + 1 =>
    let r := s.readCursor
    State.drainBytes (r.2.hbufWrite p r.1) (p + 1#9) n

/-- `Drain(p, c)` (R161). -/
def State.drain (s : State) (p : BitVec 9) (c : Nat) : State :=
  let n := min s.sessRem.toNat c
  let rem := s.sessRem - BitVec.ofNat 8 n
  let s1 := { s.drainBytes p n with sessRem := rem }
  if rem = 0#8 then s1.finish else s1.putResult .ok rem 0#8 0#8

/-- RXWHOLE with no session open (R163). -/
def State.receiveWhole (s : State) (dst cap : BitVec 9) : State :=
  let s1 := s.rxDisable
  let len := s1.memRead (.long s.par.aRxfifo)
  if len.1.toNat > cap.toNat then len.2.rxFlush.rxEnable.raise .bufferTooSmall len.1
  else
    let s2 := (len.2.hbufWrite dst len.1).readBuf (s.par.aRxfifo + 1#11) (dst + 1#9) len.1.toNat
    let lqi := s2.memRead (.long (s.par.aRxfifo + 1#11 + len.1.setWidth 11))
    let rssi := lqi.2.memRead (.long (s.par.aRxfifo + 2#11 + len.1.setWidth 11))
    let s3 := { rssi.2 with sessLqi := lqi.1, sessRssi := rssi.1 }
    s3.rxFlush.rxEnable.putResult .ok len.1 lqi.1 rssi.1

/-- RXWHOLE (R163): receive a whole frame in one command; `SESSION_OPEN` while a session is open (R202). -/
def execRxwhole (dst cap : BitVec 9) (s : State) : Out :=
  .next (if s.sessOpen then s.raise .sessionOpen 0#8 else s.receiveWhole dst cap)

/-- RXCHUNK.ABORT (R164): abandon the session. Its operands are ignored (R89). -/
def execRxchunkAbort (_first : Bool) (_dst _cap : BitVec 9) (s : State) : Out :=
  .next ({ s.rxFlush.rxEnable with sessOpen := false, sessRem := 0#8 }.putResult .aborted 0#8 0#8 0#8)

/-- RXCHUNK.FIRST with no session open and `CAP` at least 1 (R165): open a session and copy the first chunk. -/
def State.openSession (s : State) (dst cap : BitVec 9) : State :=
  let s1 := { s.rxDisable with sessCur := s.par.aRxfifo }
  let len := s1.readCursor
  let s2 := { len.2 with sessRem := len.1, sessOpen := true }
  (s2.hbufWrite dst len.1).drain (dst + 1#9) (cap.toNat - 1)

/-- RXCHUNK.FIRST (R165): `SESSION_OPEN` while a session is open, else `BUFFER_TOO_SMALL` when `CAP` is 0 (R209). -/
def execRxchunkFirst (dst cap : BitVec 9) (s : State) : Out :=
  .next (
    if s.sessOpen then s.raise .sessionOpen 0#8
    else if cap = 0#9 then s.raise .bufferTooSmall 0#8
    else s.openSession dst cap)

/-- RXCHUNK.NEXT (R166): copy the next chunk; `NO_SESSION` when no session is open (R203). -/
def execRxchunkNext (dst cap : BitVec 9) (s : State) : Out :=
  .next (if s.sessOpen then s.drain dst cap.toNat else s.raise .noSession 0#8)

end Sys2Proof.Machine
end

