-- ==== Sys2Proof/Machine/Transmit.lean ====
section
/-! DEFINITION. Transmit frame assembly: TX, TXRAW, TXRES (R140 to R142). -/
namespace Sys2Proof.Machine

/-- The effect of TX once its payload is known (R140). -/
def State.transmit (s : State) (dest : BitVec 16) (plen : BitVec 8) (payload : List Byte) : State :=
  let sL := s.memRead (.short s.par.aSadrl)
  let sH := sL.2.memRead (.short s.par.aSadrh)
  let pL := sH.2.memRead (.short s.par.aPanidl)
  let pH := pL.2.memRead (.short s.par.aPanidh)
  let seq := s.seq
  let flen := Config.hdrLen + plen
  let hdr := macHeader s.par seq pL.1 pH.1 dest sL.1 sH.1
  let s1 := { pH.2 with seq := seq + 1#8 }
  let s2 := s1.writeBuf s.par.aTxnfifo (Config.hdrLen :: flen :: (hdr ++ payload))
  s2.txTrigger.putResult .ok seq flen 0#8

/-- TX (R140): synthesise a data frame and transmit it. A payload byte nothing has written is the model fault of R220. -/
def execTx (dest : BitVec 16) (plen : BitVec 8) (s : State) : Out :=
  match hbufSlice s.hbuf 0#9 plen.toNat with
  | some payload => .next (s.transmit dest plen payload)
  | none => .fault .unwrittenHbuf

/-- The effect of TXRAW once its frame bytes are known (R141). -/
def State.transmitRaw (s : State) (hlen flen : BitVec 8) (frame : List Byte) : State :=
  let s1 := s.txAckReq
  let s2 := s1.writeBuf s.par.aTxnfifo (hlen :: flen :: frame)
  s2.txTrigger.putResult .ok 0#8 0#8 0#8

/-- TXRAW (R141): transmit a frame whose header the host supplies. -/
def execTxraw (hlen flen : BitVec 8) (s : State) : Out :=
  match hbufSlice s.hbuf 0#9 flen.toNat with
  | some frame => .next (s.transmitRaw hlen flen frame)
  | none => .fault .unwrittenHbuf

/-- TXRES (R142): classify the outcome of the last transmission. -/
def execTxres (s : State) : Out :=
  let r := s.memRead (.short s.par.aTxstat)
  .next (r.2.putResult (txOutcome s.par r.1) r.1 0#8 0#8)

end Sys2Proof.Machine
end

