-- ==== Sys2Proof/Machine/Dispatch.lean ====
section
/-! DEFINITION. One arm per command (R81), each one direct call of its meaning. -/
namespace Sys2Proof.Machine

def exec (i : Instr) (s : State) : Host.Outcome State Fault Refusal :=
  match i with
  | .tx dest plen => Sys2Proof.Machine.execTx dest plen s
  | .txraw hlen flen => Sys2Proof.Machine.execTxraw hlen flen s
  | .txres => Sys2Proof.Machine.execTxres s
  | .rxwhole dst cap => Sys2Proof.Machine.execRxwhole dst cap s
  | .rxchunkAbort first dst cap => Sys2Proof.Machine.execRxchunkAbort first dst cap s
  | .rxchunkFirst dst cap => Sys2Proof.Machine.execRxchunkFirst dst cap s
  | .rxchunkNext dst cap => Sys2Proof.Machine.execRxchunkNext dst cap s
  | .poll => Sys2Proof.Machine.execPoll s
  | .rds addr => Sys2Proof.Machine.execRds addr s
  | .wrs addr data => Sys2Proof.Machine.execWrs addr data s
  | .rdl addr => Sys2Proof.Machine.execRdl addr s
  | .wrl addr data => Sys2Proof.Machine.execWrl addr data s

end Sys2Proof.Machine
end

