-- ==== Sys2Proof/Machine/HostWindow.lean ====
section
/-! DEFINITION. The host register window (R31 to R34): what the host reads, what its writes do, and how a write of `CMD`
starts a command (R28, R88, R201). -/
namespace Sys2Proof.Machine

/-- Offset of `CMD` (R31). -/
def offCmd : BitVec 10 := 0x000#10
/-- Offset of `RESULT` (R31). -/
def offResult : BitVec 10 := 0x004#10
/-- Offset of `STAT` (R31). -/
def offStat : BitVec 10 := 0x008#10
/-- Offset of `CURSOR` (R31). -/
def offCursor : BitVec 10 := 0x00C#10

/-- The `HBUF` index of an offset in 0x200..0x3FF, which is `offset - 0x200`; none below (R31). -/
def hbufIndex (off : BitVec 10) : Option (BitVec 9) :=
  if off.getLsbD 9 then some (off.extractLsb' 0 9) else none

/-- `STAT` (R32): bit 0 `BUSY`, bit 1 `SESS_OPEN`, bits 15:8 `SESS_REM`, bits 23:16 `SEQ`, the rest 0. -/
def State.statWord (s : State) : Word :=
  0#8 ++ s.seq ++ s.sessRem ++ 0#6 ++ BitVec.ofBool s.sessOpen ++ BitVec.ofBool s.busy

/-- `CURSOR` (R33): bits 10:0 `SESS_CUR`, the rest 0. -/
def State.cursorWord (s : State) : Word := 0#21 ++ s.sessCur

/-- What a host read returns at an offset below 0x200: a register, and 0 for `CMD` and every offset not in the map (R31,
R34). -/
def State.registerWord (s : State) (off : BitVec 10) : Word :=
  if off = offResult then s.result
  else if off = offStat then s.statWord
  else if off = offCursor then s.cursorWord
  else 0#32

/-- A host read of an `HBUF` byte (R29); one nothing has written gives a free value (log 8). -/
def State.readHbuf (s : State) (i : BitVec 9) : State :=
  match s.hbuf.read i.toNat with
  | some b => { s with hostData := b.setWidth 32 }
  | none => { s with hostData := (Config.unwrittenByte s.freeCount).setWidth 32, freeCount := s.freeCount + 1 }

/-- A host read of the window (R31 to R34); it has no other effect. `HBUF` while `BUSY = 1`: no move (R220). -/
def hostRead (off : BitVec 10) (s : State) : Out :=
  match hbufIndex off with
  | some i => if s.busy then .fault .hostWhileBusy else .next (s.readHbuf i)
  | none => .next { s with hostData := s.registerWord off }

/-- A host write of `w` to `CMD` (R28): `BUSY` is 1 and the command runs; a word that is no command ends in
`ILLEGAL_COMMAND` with no other effect (R88, R201). While `BUSY = 1`: no move (R220). -/
def startCommand (w : Word) (s : State) : Out :=
  if s.busy then .fault .hostWhileBusy
  else
    match decode w with
    | .ok i => exec i { s with busy := true }
    | .error _ => .next ({ s with busy := true }.raise .illegalCommand 0#8)

/-- A host write of the window (R31, R34): `CMD` starts a command, `HBUF` takes the low byte, every other offset ignores
it. -/
def hostWrite (off : BitVec 10) (v : Word) (s : State) : Out :=
  if off = offCmd then startCommand v s
  else
    match hbufIndex off with
    | some i => if s.busy then .fault .hostWhileBusy else .next (s.hbufWrite i (v.extractLsb' 0 8))
    | none => .next s

/-- One access of the host. -/
def hostAccess (a : HostAct) (s : State) : Out :=
  match a with
  | .write off v => hostWrite off v s
  | .read off => hostRead off s

end Sys2Proof.Machine
end

