-- ==== Sys2Proof/Machine/Step.lean ====
section
/-! DEFINITION. One step of the machine: the host's next access, or nothing when it has none pending (R5, R21, R210, log 1). -/
namespace Sys2Proof.Machine

/-- One step: the host's next pending access to the window. With none pending the FE waits (R210, R231). -/
def step (s : State) : Host.Outcome State Fault Refusal :=
  match s.host with
  | [] => .next s
  | a :: rest => hostAccess a { s with host := rest }

/-- The state whose next step runs the command whose word is the low `nbits` bits of `w`: the FE is not busy, and the host's
next access writes that word to `CMD` (R28, log 1). -/
def State.withFetchWord (s : State) (nbits w : Nat) : State :=
  { s with busy := false, host := .write offCmd (BitVec.ofNat 32 (w % 2 ^ nbits)) :: s.host }

end Sys2Proof.Machine
end

