-- ==== Sys2Proof/Machine/Assembler.lean ====
section
/-! DEFINITION. The assembler (R104, R105, R110): from a line's text to the line, and from a line to the host's accesses it
stands for. A program is a list of lines, and the host's list is their accesses in order (R21). -/
namespace Sys2Proof.Machine

/-! ## From a line to host accesses -/

/-- The host writes a command word to `CMD` (R28). -/
def cmdWrite (w : Word) : HostAct := .write offCmd w

/-- The host writes consecutive `HBUF` bytes, indices mod 512 (R53, R110). -/
def hbufWrites (i : BitVec 9) : List Nat → List HostAct
  | [] => []
  | b :: bs => .write (1#1 ++ i) (BitVec.ofNat 32 b) :: hbufWrites (i + 1#9) bs

/-- `wrs` at the short register `a` (R110). -/
def wrsWord (a : BitVec 6) (v : BitVec 8) : Word := encode (.wrs (a.setWidth 11) v)

/-- The accesses of a line whose operands fit (R104, R105, R110). -/
def emit (p : Params) : AsmLine → List HostAct
  | .tx dest plen => [cmdWrite (encode (.tx (.ofNat 16 dest) (.ofNat 8 plen)))]
  | .txraw hlen flen => [cmdWrite (encode (.txraw (.ofNat 8 hlen) (.ofNat 8 flen)))]
  | .txres => [cmdWrite (encode .txres)]
  | .rxwhole dst cap => [cmdWrite (encode (.rxwhole (.ofNat 9 dst) (.ofNat 9 cap)))]
  | .rxchunkFirst dst cap => [cmdWrite (encode (.rxchunkFirst (.ofNat 9 dst) (.ofNat 9 cap)))]
  | .rxchunkNext dst cap => [cmdWrite (encode (.rxchunkNext (.ofNat 9 dst) (.ofNat 9 cap)))]
  | .rxchunkAbort => [cmdWrite (encode (.rxchunkAbort false 0#9 0#9))]
  | .rxchunkAbortOps dst cap => [cmdWrite (encode (.rxchunkAbort false (.ofNat 9 dst) (.ofNat 9 cap)))]
  | .rxchunk dst cap first abort =>
    [cmdWrite (encodeB 0x5#4 (abort == 1) (first == 1) (.ofNat 9 dst) (.ofNat 9 cap))]
  | .poll => [cmdWrite (encode .poll)]
  | .rds addr => [cmdWrite (encode (.rds (.ofNat 11 addr)))]
  | .wrs addr data => [cmdWrite (encode (.wrs (.ofNat 11 addr) (.ofNat 8 data)))]
  | .rdl addr => [cmdWrite (encode (.rdl (.ofNat 11 addr)))]
  | .wrl addr data => [cmdWrite (encode (.wrl (.ofNat 11 addr) (.ofNat 8 data)))]
  | .word v => [cmdWrite (.ofNat 32 v)]
  | .setpan id =>
    [cmdWrite (wrsWord p.aPanidh (.ofNat 8 (id / 256))), cmdWrite (wrsWord p.aPanidl (.ofNat 8 id))]
  | .setsaddr addr =>
    [cmdWrite (wrsWord p.aSadrh (.ofNat 8 (addr / 256))), cmdWrite (wrsWord p.aSadrl (.ofNat 8 addr))]
  | .hbuf i bytes => hbufWrites (.ofNat 9 i) bytes

/-- The accesses of a line; none when an operand does not fit its field (R104: the assembler never truncates). -/
def assemble (p : Params) (l : AsmLine) : Option (List HostAct) := if l.wellFormed then some (emit p l) else none

/-! ## From text to a line (R104: case-insensitive mnemonic, decimal or `0x` numbers, operands separated by commas) -/

/-- A blank of a line. -/
def isBlank (c : Char) : Bool := c == ' ' || c == '\t'

/-- A character with capitals made small. -/
def lowerChar (c : Char) : Char := if 65 ≤ c.toNat && c.toNat ≤ 90 then Char.ofNat (c.toNat + 32) else c

/-- Without the blanks at both ends. -/
def trimBlanks (cs : List Char) : List Char := (((cs.dropWhile isBlank).reverse).dropWhile isBlank).reverse

/-- The value of a digit, `a` to `f` being 10 to 15. -/
def digitValue (c : Char) : Option Nat :=
  if 48 ≤ c.toNat && c.toNat ≤ 57 then some (c.toNat - 48)
  else if 97 ≤ c.toNat && c.toNat ≤ 102 then some (c.toNat - 87)
  else none

/-- Digits of a base, the most significant first, after the value `acc`. -/
def readDigits (base acc : Nat) : List Char → Option Nat
  | [] => some acc
  | c :: cs =>
    match digitValue c with
    | some d => if d < base then readDigits base (acc * base + d) cs else none
    | none => none

/-- A number: `0x` and hexadecimal digits, or decimal digits. -/
def parseNumber (cs : List Char) : Option Nat :=
  match cs with
  | [] => none
  | c :: rest =>
    match rest with
    | x :: d :: ds => if c == '0' && x == 'x' then readDigits 16 0 (d :: ds) else readDigits 10 0 cs
    | _ => readDigits 10 0 cs

/-- The pieces between commas. -/
def splitCommas : List Char → List (List Char)
  | [] => [[]]
  | c :: cs =>
    if c == ',' then [] :: splitCommas cs
    else
      match splitCommas cs with
      | [] => [[c]]
      | p :: ps => (c :: p) :: ps

/-- All pieces as numbers, or none. -/
def parseNumbers : List (List Char) → Option (List Nat)
  | [] => some []
  | p :: ps =>
    match parseNumber (trimBlanks p), parseNumbers ps with
    | some n, some ns => some (n :: ns)
    | _, _ => none

/-- The operands after a mnemonic. -/
def parseOperands (cs : List Char) : Option (List Nat) :=
  if trimBlanks cs = [] then some [] else parseNumbers (splitCommas cs)

/-- The line a mnemonic and its operands make (R104, R105, R110). -/
def lineOf (mnemonic : List Char) (ops : List Nat) : Option AsmLine :=
  if mnemonic = ['t', 'x'] then
    match ops with | [a, b] => some (.tx a b) | _ => none
  else if mnemonic = ['t', 'x', 'r', 'a', 'w'] then
    match ops with | [a, b] => some (.txraw a b) | _ => none
  else if mnemonic = ['t', 'x', 'r', 'e', 's'] then
    match ops with | [] => some .txres | _ => none
  else if mnemonic = ['r', 'x', 'w', 'h', 'o', 'l', 'e'] then
    match ops with | [a, b] => some (.rxwhole a b) | _ => none
  else if mnemonic = ['r', 'x', 'c', 'h', 'u', 'n', 'k', '.', 'f', 'i', 'r', 's', 't'] then
    match ops with | [a, b] => some (.rxchunkFirst a b) | _ => none
  else if mnemonic = ['r', 'x', 'c', 'h', 'u', 'n', 'k', '.', 'n', 'e', 'x', 't'] then
    match ops with | [a, b] => some (.rxchunkNext a b) | _ => none
  else if mnemonic = ['r', 'x', 'c', 'h', 'u', 'n', 'k', '.', 'a', 'b', 'o', 'r', 't'] then
    match ops with | [] => some .rxchunkAbort | [a, b] => some (.rxchunkAbortOps a b) | _ => none
  else if mnemonic = ['r', 'x', 'c', 'h', 'u', 'n', 'k'] then
    match ops with | [a, b, f, x] => some (.rxchunk a b f x) | _ => none
  else if mnemonic = ['p', 'o', 'l', 'l'] then
    match ops with | [] => some .poll | _ => none
  else if mnemonic = ['r', 'd', 's'] then
    match ops with | [a] => some (.rds a) | _ => none
  else if mnemonic = ['w', 'r', 's'] then
    match ops with | [a, v] => some (.wrs a v) | _ => none
  else if mnemonic = ['r', 'd', 'l'] then
    match ops with | [a] => some (.rdl a) | _ => none
  else if mnemonic = ['w', 'r', 'l'] then
    match ops with | [a, v] => some (.wrl a v) | _ => none
  else if mnemonic = ['.', 'w', 'o', 'r', 'd'] then
    match ops with | [v] => some (.word v) | _ => none
  else if mnemonic = ['s', 'e', 't', 'p', 'a', 'n'] then
    match ops with | [v] => some (.setpan v) | _ => none
  else if mnemonic = ['s', 'e', 't', 's', 'a', 'd', 'd', 'r'] then
    match ops with | [v] => some (.setsaddr v) | _ => none
  else if mnemonic = ['h', 'b', 'u', 'f'] then
    match ops with | i :: b :: bs => some (.hbuf i (b :: bs)) | _ => none
  else none

/-- The line a text is, none when it is none (R104). -/
def parseLine (cs : List Char) : Option AsmLine :=
  let t := trimBlanks (cs.map lowerChar)
  match parseOperands (t.dropWhile (fun c => !isBlank c)) with
  | some ops => lineOf (t.takeWhile (fun c => !isBlank c)) ops
  | none => none

/-- A program's text, one line a command (R104), as the host's list of accesses (R21). -/
def assembleText (p : Params) : List (List Char) → Option (List HostAct)
  | [] => some []
  | l :: ls =>
    match (parseLine l).bind (assemble p), assembleText p ls with
    | some as, some rest => some (as ++ rest)
    | _, _ => none

end Sys2Proof.Machine
end

