-- ==== Sys2Proof/Machine/Framing.lean ====
section
/-! DEFINITION. The framing of bus transactions (R94 to R98) and the transport calls each one makes (R54, R55, R99). -/
namespace Sys2Proof.Machine

/-- The short framing byte (R95): bit 7 is 0, bits 6:1 the address, bit 0 the write flag. -/
def shortFrame (a : BitVec 6) (w : Bool) : Byte := 0#1 ++ a ++ BitVec.ofBool w

/-- The long framing byte sent first (R96): bit 7 is 1, bits 6:0 are `a[9:3]`. -/
def longFrame0 (a : BitVec 11) : Byte := 1#1 ++ a.extractLsb' 3 7

/-- The long framing byte sent second (R96): `a[2:0]`, the write flag, `a[10]`, three zero bits. -/
def longFrame1 (a : BitVec 11) (w : Bool) : Byte :=
  a.extractLsb' 0 3 ++ BitVec.ofBool w ++ a.extractLsb' 10 1 ++ 0#3

/-- The framing byte or bytes of an access (R94). -/
def frameBytes (loc : BusAddr) (w : Bool) : List Byte :=
  match loc with
  | .short a => [shortFrame a w]
  | .long a => [longFrame0 a, longFrame1 a w]

/-- Decoding a framing (R98): the location, the write flag, and the bytes after the framing. -/
def decodeFrame : List Byte → Option ((BusAddr × Bool) × List Byte)
  | [] => none
  | f :: rest =>
    if f.getLsbD 7 = false then some ((.short (f.extractLsb' 1 6), f.getLsbD 0), rest)
    else
      match rest with
      | [] => none
      | g :: rest' => some ((.long (g.extractLsb' 3 1 ++ f.extractLsb' 0 7 ++ g.extractLsb' 5 3), g.getLsbD 4), rest')

/-- A call on the transport (R55). -/
inductive TransportCall where
  | assertSelect
  /-- `exchange_byte(out)`; `used` is the received byte when the FE uses it (R97, R99) -/
  | exchangeByte (out : Byte) (used : Option Byte)
  | releaseSelect
deriving DecidableEq, Repr

/-- The transport calls of a transaction (R99): select, framing, data phase (R97), release. -/
def transportCalls (p : Params) (e : BusEvent) : List TransportCall :=
  match e with
  | .rd loc v =>
    .assertSelect :: (frameBytes loc false).map (fun f => .exchangeByte f none) ++
      [.exchangeByte p.readDummy (some v), .releaseSelect]
  | .wr loc v =>
    .assertSelect :: (frameBytes loc true).map (fun f => .exchangeByte f none) ++
      [.exchangeByte v none, .releaseSelect]

/-- All transport calls the FE has made since reset, in order (R54, R58, R65). -/
def State.wire (s : State) : List TransportCall := s.trace.flatMap (transportCalls s.par)

end Sys2Proof.Machine
end

