-- ==== Sys2Proof/Safety.lean ====
section
/-! DEFINITION. The terms the claims use: the shape of a command's transactions, what it means that the radio answered them,
the invariants of the machine, and runs of commands. -/
namespace Sys2Proof.Machine

/-! ## Transactions of a command -/

/-- The radio answered every read of `es`, issued in order from `s`, with the byte the event records (R57). -/
def State.Answered : State → List BusEvent → Prop
  | _, [] => True
  | s, .rd loc v :: es => v = s.radioAnswer loc ∧ State.Answered (s.issue (.rd loc v)) es
  | s, .wr loc v :: es => State.Answered (s.issue (.wr loc v)) es

/-- `SetBit(a, b)` when the register reads `v` (R120). -/
def setBitEvents (a : BitVec 6) (b : Fin 8) (v : Byte) : List BusEvent :=
  [.rd (.short a) v, .wr (.short a) (v ||| (1#8 <<< b.val))]

/-- `ClearBit(a, b)` when the register reads `v` (R121). -/
def clearBitEvents (a : BitVec 6) (b : Fin 8) (v : Byte) : List BusEvent :=
  [.rd (.short a) v, .wr (.short a) (v &&& ~~~ (1#8 <<< b.val))]

/-- Long writes of `bs` at consecutive addresses from `a`, mod 2048 (R127). -/
def writeEvents (a : BitVec 11) : List Byte → List BusEvent
  | [] => []
  | v :: vs => .wr (.long a) v :: writeEvents (a + 1#11) vs

/-- Long reads at consecutive addresses from `a`, mod 2048, answered with `bs` (R128). -/
def readEvents (a : BitVec 11) : List Byte → List BusEvent
  | [] => []
  | v :: vs => .rd (.long a) v :: readEvents (a + 1#11) vs

/-- `RxDisable` (R122) when the register reads `v`. -/
def disableEvents (p : Params) (v : Byte) : List BusEvent := setBitEvents p.aBbreg1 p.bRxdecinv v
/-- `RxFlush` (R124) then `RxEnable` (R123), when the registers read `f` and `e`. -/
def flushEnableEvents (p : Params) (f e : Byte) : List BusEvent :=
  setBitEvents p.aRxflush p.bRxflush f ++ clearBitEvents p.aBbreg1 p.bRxdecinv e

/-- The byte at index `j` of `HBUF` after `bs` was written from index `d` on over `m`, indices mod 512 (R53). -/
def overlaid (m : Memory) (d : BitVec 9) (bs : List Byte) (j : BitVec 9) : Option Byte :=
  if (j - d).toNat < bs.length then bs[(j - d).toNat]? else m.read j.toNat

/-- The byte last written to the short register `a` in a bus trace. -/
def lastWriteTo (a : BitVec 6) : List BusEvent → Option Byte
  | [] => none
  | e :: es =>
    match lastWriteTo a es with
    | some v => some v
    | none =>
      match e with
      | .wr (.short b) v => if b = a then some v else none
      | _ => none

/-! ## Command words -/

/-- The bits that must be 0 in a word of each opcode, beside `OP` itself (R82 to R86, R88); none for an opcode that is not
assigned (R81). -/
def reservedMask : Nat → Option Word
  | 0x1 => some 0x000000F0#32
  | 0x2 => some 0xFF0000F0#32
  | 0x3 | 0x6 => some 0xFFFFFFF0#32
  | 0x4 => some 0xFC0000F0#32
  | 0x5 => some 0xFC0000C0#32
  | 0x8 | 0xA => some 0xFFF800F0#32
  | 0x9 | 0xB => some 0x00F800F0#32
  | _ => none

/-- The word is an illegal encoding (R88). -/
def IllegalWord (w : Word) : Prop :=
  match reservedMask (w.extractLsb' 0 4).toNat with
  | some m => w &&& m ≠ 0#32
  | none => True

/-- Every word with these fixed bits (`w &&& mask = value`, a row of the opcode table) is the command `i w`, the operands it
ignores included (log 11). -/
def Encodes (mask value : Word) (i : Word → Instr) : Prop := ∀ w, w &&& mask = value → decode w = .ok (i w)

/-- A word with opcode `op` and a reserved bit set does nothing but raise `ILLEGAL_COMMAND` (R88, R201). -/
def ReservedBitsRaise (op : BitVec 4) (reserved : Word) : Prop :=
  ∀ w s, w.extractLsb' 0 4 = op → w &&& reserved ≠ 0#32 → s.busy = false →
    startCommand w s = .next { s with result := 0x00000007#32 }

/-- The command ends having issued exactly `n` transactions (R246). -/
def Issues (o : Out) (s : State) (n : Nat) : Prop := ∃ t, o = .next t ∧ t.trace.length = s.trace.length + n

/-- The short registers a command touches itself (R64), RDS and WRS apart. -/
def touchedShort (p : Params) : Instr → List BusAddr
  | .tx _ _ => [.short p.aPanidl, .short p.aPanidh, .short p.aSadrl, .short p.aSadrh, .short p.aTxncon]
  | .txraw _ _ => [.short p.aTxncon]
  | .txres => [.short p.aTxstat]
  | .poll => [.short p.aIntstat]
  | .rxwhole _ _ | .rxchunkAbort _ _ _ | .rxchunkFirst _ _ | .rxchunkNext _ _ => [.short p.aRxflush, .short p.aBbreg1]
  | .rds addr => [.short (addr.extractLsb' 0 6)]
  | .wrs addr _ => [.short (addr.extractLsb' 0 6)]
  | .rdl _ => []
  | .wrl _ _ => []

/-- The location of a transaction. -/
def eventLoc : BusEvent → BusAddr
  | .rd l _ => l
  | .wr l _ => l

/-! ## Invariants -/

/-- The short registers of R6 are pairwise distinct, and so are the two long ones. -/
def DistinctRegisters (p : Params) : Prop :=
  [p.aPanidl, p.aPanidh, p.aSadrl, p.aSadrh, p.aRxflush, p.aTxncon, p.aTxstat, p.aIntstat, p.aBbreg1].Nodup ∧
    p.aTxnfifo ≠ p.aRxfifo

/-- R37: a session is open exactly when bytes of its frame remain. -/
def State.SessionInv (s : State) : Prop :=
  (s.sessOpen = true → 0 < s.sessRem.toNat) ∧ (s.sessOpen = false → s.sessRem = 0#8)

/-- The memories keep their canonical form. -/
def State.MemInv (s : State) : Prop :=
  s.hbuf.wf = true ∧
    match s.radio with
    | .oracle => True
    | .reference m => m.rs.wfZ 64 = true ∧ m.rl.wfZ 2048 = true

/-- R90, R91: `RESULT[7:4]` is 0 and no reserved status code (8 to 15) is held. -/
def State.ResultInv (s : State) : Prop := s.result.extractLsb' 4 4 = 0#4 ∧ (s.result.extractLsb' 0 4).toNat < 8

/-- R57: with the oracle as the radio, each read of the trace carries the oracle's answer to the trace before it. -/
def State.TraceInv (s : State) : Prop :=
  s.radio = .oracle →
    ∀ before loc v after, s.trace = before ++ .rd loc v :: after → v = Config.radioByte before loc

/-- R35, R169: while a session is open, the last write of the receive-disable register in the trace is a disable. -/
def State.ReceptionHeld (s : State) : Prop :=
  s.sessOpen = true → ∃ v, lastWriteTo s.par.aBbreg1 s.trace = some v ∧ v.getLsbD s.par.bRxdecinv = true

/-- The host's next access does not write the receive-disable register with WRS (R169, R236). -/
def State.HostSparesReception (s : State) : Prop :=
  ∀ w addr data, s.host.head? = some (.write offCmd w) → decode w = .ok (.wrs addr data) →
    shortAddr addr ≠ s.par.aBbreg1

/-! ## Runs -/

/-- Goes on from a next state, and stops at a fault or a refusal. -/
def andThen (o : Out) (f : State → Out) : Out :=
  match o with
  | .next s => f s
  | .fault r => .fault r
  | .refused r => .refused r

/-- The host makes window accesses one after another (R21). -/
def runHost : List HostAct → State → Out
  | [], s => .next s
  | a :: as, s => andThen (hostAccess a s) (runHost as)

/-- The access writes a legal TX command to `CMD`. -/
def isTx : HostAct → Bool
  | .write off w =>
    off == offCmd &&
      match decode w with
      | .ok (.tx _ _) => true
      | _ => false
  | .read _ => false

/-- RXCHUNK.NEXT with the capacities `cs`, each chunk placed after the one before, until the session closes (R167). -/
def nextChunks (d : BitVec 9) : List (BitVec 9) → State → Out
  | [], s => .next s
  | c :: cs, s => if s.sessOpen then andThen (exec (.rxchunkNext d c) s) (nextChunks (d + c) cs) else .next s

/-- A frame received in chunks of capacities `c1` and `cs` from index `d` on (R167). -/
def receiveInChunks (d c1 : BitVec 9) (cs : List (BitVec 9)) (s : State) : Out :=
  andThen (exec (.rxchunkFirst d c1) s) (nextChunks (d + c1) cs)

end Sys2Proof.Machine
end

