-- ==== Sys2Proof/Certificates/Slice0/Obligations.lean ====
section
/-! DEFINITION. The statements about the frame engine, one for each rule or group of rules of spec/ that says what a command or
the machine does. A command's statement gives the whole next state: the transactions `es` it issues (`issueAll` appends them
to the bus trace, and `Answered` says that each read carries the radio's answer), the fields it writes, and, by the record
update, that every other field is as before. -/
open Sys2Proof Sys2Proof.Machine

/-! ## Reset, the host window, the step -/

/-- R36: the value of every element after reset that the spec gives one. -/
def Obligations.ResetPutsEveryElementAtItsValue : Prop :=
  State.reset.seq = Config.seqInit ∧ State.reset.sessOpen = false ∧ State.reset.sessRem = 0#8 ∧
    State.reset.sessCur = 0x000#11 ∧ State.reset.result = 0x00000000#32 ∧ State.reset.busy = false ∧
    (∀ i, State.reset.hbuf.read i = none) ∧ State.reset.trace = []

/-- R32, R33: the fields of `STAT` and `CURSOR` as a host read returns them, and that a host write changes nothing. -/
def Obligations.StatAndCursorShowTheState : Prop :=
  ∀ s : State,
    (∃ w, hostRead 0x008#10 s = .next { s with hostData := w } ∧
      w.getLsbD 0 = s.busy ∧ w.getLsbD 1 = s.sessOpen ∧ w.extractLsb' 2 6 = 0#6 ∧ w.extractLsb' 8 8 = s.sessRem ∧
      w.extractLsb' 16 8 = s.seq ∧ w.extractLsb' 24 8 = 0#8) ∧
    (∃ w, hostRead 0x00C#10 s = .next { s with hostData := w } ∧
      w.extractLsb' 0 11 = s.sessCur ∧ w.extractLsb' 11 21 = 0#21) ∧
    ∀ v, hostWrite 0x008#10 v s = .next s ∧ hostWrite 0x00C#10 v s = .next s

/-- R34: writes to read-only registers and unmapped offsets have no effect, reads of `CMD` and unmapped offsets return 0, and
the writable locations take any value: an `HBUF` byte is the byte written, and a word written to `CMD` starts the command it is
(R28) or ends in `ILLEGAL_COMMAND` (R201). That an offset inside a register counts as unmapped, and that an `HBUF` access moves
the low 8 bits, is the model's choice (log 9). -/
def Obligations.ReadOnlyAndUnmappedOffsetsAreInert : Prop :=
  (∀ (off : BitVec 10) v s, off ≠ 0x000#10 → off.toNat < 0x200 → hostWrite off v s = .next s) ∧
  (∀ (off : BitVec 10) s, off ≠ 0x004#10 → off ≠ 0x008#10 → off ≠ 0x00C#10 → off.toNat < 0x200 →
    hostRead off s = .next { s with hostData := 0#32 }) ∧
  (∀ (i : BitVec 9) (b : Byte) (s : State), s.busy = false → ∃ t,
    hostWrite (0x200#10 + i.setWidth 10) (b.setWidth 32) s = .next t ∧ t.hbuf.read i.toNat = some b) ∧
  ∀ w (s : State), hostWrite 0x000#10 w s = startCommand w s ∧ (s.busy = false →
    hostWrite 0x000#10 w s ≠ .fault .hostWhileBusy ∧
    (∀ i, decode w = .ok i → hostWrite 0x000#10 w s = exec i { s with busy := true }) ∧
    (IllegalWord w → hostWrite 0x000#10 w s = .next { s with result := 0x00000007#32 }))

/-- The host's view of `RESULT` and of `HBUF` (R27, R29, R31): a byte written is the byte read, other bytes and all other state
are as before. That an `HBUF` access moves the low 8 bits of the value is the model's choice (log 9). -/
def Obligations.HostReadsResultAndBufferBytes : Prop :=
  (∀ s, hostRead 0x004#10 s = .next { s with hostData := s.result }) ∧
  (∀ (i : BitVec 9) (s : State) b, s.busy = false → s.hbuf.read i.toNat = some b →
    hostRead (0x200#10 + i.setWidth 10) s = .next { s with hostData := b.setWidth 32 }) ∧
  ∀ (i : BitVec 9) (v : Word) (s : State), s.busy = false → ∃ m,
    hostWrite (0x200#10 + i.setWidth 10) v s = .next { s with hbuf := m } ∧
    ∀ j : BitVec 9, m.read j.toNat = if j = i then some (v.extractLsb' 0 8) else s.hbuf.read j.toNat

/-- What a host read of a byte nothing has written returns is not stated by the spec; the model completes it with a free value
(log 8): whatever that value is, nothing of the FE changes. -/
def Obligations.HostReadOfUnwrittenByteCompletes : Prop :=
  ∀ (i : BitVec 9) (s : State), s.busy = false → s.hbuf.read i.toNat = none → ∃ v : Byte,
    hostRead (0x200#10 + i.setWidth 10) s =
      .next { s with hostData := v.setWidth 32, freeCount := s.freeCount + 1 }

/-- R220: TX and TXRAW fault on an `HBUF` byte nothing has written, and while `BUSY = 1` a write of `CMD` or an access to `HBUF`
has no move. -/
def Obligations.ModelFaultsAndHostDuties : Prop :=
  (∀ (dest : BitVec 16) (plen : BitVec 8) (s : State) k, k < plen.toNat → s.hbuf.read k = none →
    exec (.tx dest plen) s = .fault .unwrittenHbuf) ∧
  (∀ (hlen flen : BitVec 8) (s : State) k, k < flen.toNat → s.hbuf.read k = none →
    exec (.txraw hlen flen) s = .fault .unwrittenHbuf) ∧
  ∀ (s : State), s.busy = true →
    (∀ w t, hostWrite 0x000#10 w s ≠ .next t) ∧
    ∀ (i : BitVec 9) t, hostRead (0x200#10 + i.setWidth 10) s ≠ .next t ∧
      ∀ v, hostWrite (0x200#10 + i.setWidth 10) v s ≠ .next t

/-- R28 with log 1: a step performs the host's next access; a write of a word that is a command runs `exec` of that command,
with `BUSY` at 1; with nothing pending the FE waits. The word's four bytes, lowest first, decode to the same command. -/
def Obligations.StepRunsTheDecodedCommand : Prop :=
  (∀ (s : State) w rest i, s.host = .write 0x000#10 w :: rest → s.busy = false → decode w = .ok i →
    step s = exec i { s with host := rest, busy := true } ∧
    ∀ more, decodeBytes (wordBytes w ++ more) = .ok (i, more)) ∧
  (∀ (s : State) a rest, s.host = a :: rest → step s = hostAccess a { s with host := rest }) ∧
  (∀ s : State, s.host = [] → step s = .next s) ∧
  ∀ (s : State) nbits w i, decode (BitVec.ofNat 32 (w % 2 ^ nbits)) = .ok i →
    step (s.withFetchWord nbits w) = exec i { s with busy := true }

/-- R88, R201: an illegal word writes `RESULT` with `ILLEGAL_COMMAND` and changes nothing else; every other word is a
command. -/
def Obligations.IllegalWordsOnlyRaise : Prop :=
  (∀ w (s : State), IllegalWord w → s.busy = false → startCommand w s = .next { s with result := 0x00000007#32 }) ∧
  ∀ w, ¬ IllegalWord w → ∃ i, decode w = .ok i ∧ ∀ s : State, s.busy = false → startCommand w s = exec i { s with busy := true }

/-! ## Encodings -/

/-- Every command, with every operand at every value, decodes from its own word and from that word's bytes. That a command keeps
the bits it ignores as operands is the model's choice (log 11), and so is the byte order of the word's bytes (log 15). -/
def Obligations.DecodeOfEncodeIsTheCommand : Prop :=
  ∀ i : Instr, decode (encode i) = .ok i ∧ ∀ rest, decodeBytes (wordBytes (encode i) ++ rest) = .ok (i, rest)

/-- A legal word is the word of the command it decodes to: no bit of it is dropped, and two words never share a command. This
holds of the model because it keeps the bits that RXCHUNK.ABORT, RDS and WRS ignore as operands of the instruction, the model's
choice (log 11): R88 and R89 let the FE drop or ignore these bits. -/
def Obligations.EncodeOfDecodeIsTheWord : Prop := ∀ w i, decode w = .ok i → encode i = w

/-- Words written out in the spec's tables, one of every command. The ignored bits among the operands are log 11. -/
def Obligations.WordsOfTheSpecDecode : Prop :=
  decode 0x00010301#32 = .ok (.tx 0x0001#16 3#8) ∧
  decode 0x000C0902#32 = .ok (.txraw 9#8 12#8) ∧
  decode 0x00000003#32 = .ok .txres ∧
  decode 0x01000004#32 = .ok (.rxwhole 0#9 128#9) ∧
  decode 0x00060035#32 = .ok (.rxchunkAbort true 0#9 3#9) ∧
  decode 0x00080015#32 = .ok (.rxchunkFirst 0#9 4#9) ∧
  decode 0x00080405#32 = .ok (.rxchunkNext 4#9 4#9) ∧
  decode 0x00000006#32 = .ok .poll ∧
  decode 0x0007F108#32 = .ok (.rds 0x7F1#11) ∧
  decode 0x34000109#32 = .ok (.wrs 0x01#11 0x34#8) ∧
  decode 0x0003000A#32 = .ok (.rdl 0x300#11) ∧
  decode 0x66000B0B#32 = .ok (.wrl 0x00B#11 0x66#8)

/-- R89: `ABORT` selects before `FIRST`, and `RXCHUNK.ABORT` ignores its operands (which the instruction keeps: log 11). -/
def Obligations.ChunkFormIsSelectedByAbortThenFirst : Prop :=
  (∀ w : Word, w.extractLsb' 0 4 = 0x5#4 → w &&& 0xFC0000C0#32 = 0#32 →
    (w.getLsbD 5 = true →
      decode w = .ok (.rxchunkAbort (w.getLsbD 4) (w.extractLsb' 8 9) (w.extractLsb' 17 9))) ∧
    (w.getLsbD 5 = false → w.getLsbD 4 = true → decode w = .ok (.rxchunkFirst (w.extractLsb' 8 9) (w.extractLsb' 17 9))) ∧
    (w.getLsbD 5 = false → w.getLsbD 4 = false → decode w = .ok (.rxchunkNext (w.extractLsb' 8 9) (w.extractLsb' 17 9)))) ∧
  ∀ f f' d d' c c' s, exec (.rxchunkAbort f d c) s = exec (.rxchunkAbort f' d' c') s

/-- R95, R96: the bit positions of the framing bytes. -/
def Obligations.FramingBytesHoldAddressAndFlag : Prop :=
  (∀ (a : BitVec 6) (w : Bool), (shortFrame a w).getLsbD 7 = false ∧ (shortFrame a w).extractLsb' 1 6 = a ∧
    (shortFrame a w).getLsbD 0 = w ∧
    shortFrame a w = ((a.setWidth 8 <<< 1) &&& 0x7E#8) ||| (BitVec.ofBool w).setWidth 8) ∧
  ∀ (a : BitVec 11) (w : Bool),
    (longFrame0 a).getLsbD 7 = true ∧ (longFrame0 a).extractLsb' 0 7 = a.extractLsb' 3 7 ∧
    (longFrame1 a w).extractLsb' 5 3 = a.extractLsb' 0 3 ∧ (longFrame1 a w).getLsbD 4 = w ∧
    (longFrame1 a w).getLsbD 3 = a.getLsbD 10 ∧ (longFrame1 a w).extractLsb' 0 3 = 0#3

/-- Decoding a framing gives back the location and the mode (R98, for every address and both modes). -/
def Obligations.FramingDecodesBack : Prop :=
  ∀ loc w rest, decodeFrame (frameBytes loc w ++ rest) = some ((loc, w), rest)

/-- R99: the transport calls of each kind of transaction. -/
def Obligations.TransactionsMakeTheseTransportCalls : Prop :=
  ∀ (p : Params) (v : Byte),
    (∀ a, transportCalls p (.rd (.short a) v) = [.assertSelect, .exchangeByte (shortFrame a false) none,
      .exchangeByte p.readDummy (some v), .releaseSelect]) ∧
    (∀ a, transportCalls p (.wr (.short a) v) = [.assertSelect, .exchangeByte (shortFrame a true) none,
      .exchangeByte v none, .releaseSelect]) ∧
    (∀ a, transportCalls p (.rd (.long a) v) = [.assertSelect, .exchangeByte (longFrame0 a) none,
      .exchangeByte (longFrame1 a false) none, .exchangeByte p.readDummy (some v), .releaseSelect]) ∧
    ∀ a, transportCalls p (.wr (.long a) v) = [.assertSelect, .exchangeByte (longFrame0 a) none,
      .exchangeByte (longFrame1 a true) none, .exchangeByte v none, .releaseSelect]

/-- R104, R105, R110: what the assembler makes of each line whose operands fit, and, line by line with the bound of each operand,
that it makes nothing of the others (lines as terms: the text is log 13). The bounds of an `hbuf` line, which has no encoding field,
are the model's choice (log 13). -/
def Obligations.AssemblerMakesTheWordsOfTheTable : Prop :=
  (∀ p l, assemble p l = none ↔ l.wellFormed = false) ∧
  (∀ (p : Params) (a b f x : Nat) (bs : List Nat),
    (assemble p (.tx a b) = none ↔ 65536 ≤ a ∨ 256 ≤ b) ∧
    (assemble p (.txraw a b) = none ↔ 256 ≤ a ∨ 256 ≤ b) ∧
    (assemble p (.rxwhole a b) = none ↔ 512 ≤ a ∨ 512 ≤ b) ∧
    (assemble p (.rxchunkFirst a b) = none ↔ 512 ≤ a ∨ 512 ≤ b) ∧
    (assemble p (.rxchunkNext a b) = none ↔ 512 ≤ a ∨ 512 ≤ b) ∧
    (assemble p (.rxchunkAbortOps a b) = none ↔ 512 ≤ a ∨ 512 ≤ b) ∧
    (assemble p (.rxchunk a b f x) = none ↔ 512 ≤ a ∨ 512 ≤ b ∨ 2 ≤ f ∨ 2 ≤ x) ∧
    (assemble p (.rds a) = none ↔ 2048 ≤ a) ∧
    (assemble p (.wrs a b) = none ↔ 2048 ≤ a ∨ 256 ≤ b) ∧
    (assemble p (.rdl a) = none ↔ 2048 ≤ a) ∧
    (assemble p (.wrl a b) = none ↔ 2048 ≤ a ∨ 256 ≤ b) ∧
    (assemble p (.word a) = none ↔ 4294967296 ≤ a) ∧
    (assemble p (.setpan a) = none ↔ 65536 ≤ a) ∧
    (assemble p (.setsaddr a) = none ↔ 65536 ≤ a) ∧
    (assemble p (.hbuf a bs) = none ↔ 512 ≤ a ∨ ∃ v ∈ bs, 256 ≤ v)) ∧
  ∀ (p : Params) (dest : BitVec 16) (plen hlen flen data : BitVec 8) (dst cap : BitVec 9) (addr : BitVec 11)
    (first abort : Bool) (w : Word),
    let cmd (w : Word) : Option (List HostAct) := some [.write 0x000#10 w]
    assemble p (.tx dest.toNat plen.toNat) = cmd (dest ++ plen ++ 0x0#4 ++ 0x1#4) ∧
    assemble p (.txraw hlen.toNat flen.toNat) = cmd (0x00#8 ++ flen ++ hlen ++ 0x0#4 ++ 0x2#4) ∧
    assemble p .txres = cmd 0x00000003#32 ∧
    assemble p (.rxwhole dst.toNat cap.toNat) = cmd (0#6 ++ cap ++ dst ++ 0b00#2 ++ 0b00#2 ++ 0x4#4) ∧
    assemble p (.rxchunkFirst dst.toNat cap.toNat) = cmd (0#6 ++ cap ++ dst ++ 0b00#2 ++ 0b01#2 ++ 0x5#4) ∧
    assemble p (.rxchunkNext dst.toNat cap.toNat) = cmd (0#6 ++ cap ++ dst ++ 0b00#2 ++ 0b00#2 ++ 0x5#4) ∧
    assemble p .rxchunkAbort = cmd 0x00000025#32 ∧
    assemble p .poll = cmd 0x00000006#32 ∧
    assemble p (.rds addr.toNat) = cmd (0x00#8 ++ 0#5 ++ addr ++ 0x0#4 ++ 0x8#4) ∧
    assemble p (.wrs addr.toNat data.toNat) = cmd (data ++ 0#5 ++ addr ++ 0x0#4 ++ 0x9#4) ∧
    assemble p (.rdl addr.toNat) = cmd (0x00#8 ++ 0#5 ++ addr ++ 0x0#4 ++ 0xA#4) ∧
    assemble p (.wrl addr.toNat data.toNat) = cmd (data ++ 0#5 ++ addr ++ 0x0#4 ++ 0xB#4) ∧
    assemble p (.rxchunk dst.toNat cap.toNat first.toNat abort.toNat) =
      cmd (0#6 ++ cap ++ dst ++ 0b00#2 ++ BitVec.ofBool abort ++ BitVec.ofBool first ++ 0x5#4) ∧
    assemble p (.rxchunkAbortOps dst.toNat cap.toNat) = cmd (0#6 ++ cap ++ dst ++ 0b00#2 ++ 0b10#2 ++ 0x5#4) ∧
    assemble p (.word w.toNat) = cmd w ∧
    assemble p (.setpan dest.toNat) = some
      [.write 0x000#10 (dest.extractLsb' 8 8 ++ 0#10 ++ p.aPanidh ++ 0x0#4 ++ 0x9#4),
       .write 0x000#10 (dest.extractLsb' 0 8 ++ 0#10 ++ p.aPanidl ++ 0x0#4 ++ 0x9#4)] ∧
    assemble p (.setsaddr dest.toNat) = some
      [.write 0x000#10 (dest.extractLsb' 8 8 ++ 0#10 ++ p.aSadrh ++ 0x0#4 ++ 0x9#4),
       .write 0x000#10 (dest.extractLsb' 0 8 ++ 0#10 ++ p.aSadrl ++ 0x0#4 ++ 0x9#4)]

/-- The `hbuf` line (R110) as accesses: byte `k` is written at index `i + k` (mod 512, R53), and no command word is emitted. -/
def Obligations.HbufLineWritesConsecutiveBytes : Prop :=
  ∀ (p : Params) (i : BitVec 9) (bs : List Byte), ∃ acts,
    assemble p (.hbuf i.toNat (bs.map BitVec.toNat)) = some acts ∧ acts.length = bs.length ∧
    ∀ k, acts[k]? = bs[k]?.map (fun b => HostAct.write (0x200#10 + (i + BitVec.ofNat 9 k).setWidth 10) (b.setWidth 32))

/-! ## Bus primitives -/

/-- R58, R65: issuing transactions appends them to the trace in order, shows each of them to the radio in that order, and changes
nothing else. What the radio is after a transaction and what it answers, for each kind of radio: the oracle (R57) stays as it is
and answers from the trace and the location (log 5); the reference radio (R70, R71, log 6) is what `Rrm.observe` makes of it and
answers from its arrays. -/
def Obligations.IssuingAppendsToTheTrace : Prop :=
  (∀ (s : State) es,
    s.issueAll es =
      { s with trace := s.trace ++ es, radio := es.foldl (fun r e => r.observe s.par e) s.radio } ∧
    (s.radio = .oracle → (s.issueAll es).radio = .oracle) ∧
    (∀ m, s.radio = .reference m →
      (s.issueAll es).radio = .reference (es.foldl (fun m e => m.observe s.par e) m)) ∧
    ∀ es', s.issueAll (es ++ es') = (s.issueAll es).issueAll es') ∧
  (∀ (p : Params) e, Radio.oracle.observe p e = .oracle ∧
    ∀ m, (Radio.reference m).observe p e = .reference (m.observe p e)) ∧
  ∀ (s : State) loc, (s.radio = .oracle → s.radioAnswer loc = Config.radioByte s.trace loc) ∧
    ∀ m, s.radio = .reference m → s.radioAnswer loc = m.answer loc

/-- R120 to R126: the bit steps are a read and then a write of the byte read with the bit set or cleared. -/
def Obligations.BitStepsAreReadThenWrite : Prop :=
  ∀ (s : State) (a : BitVec 6) (b : Fin 8),
    s.setBit a b = s.issueAll
      [.rd (.short a) (s.radioAnswer (.short a)), .wr (.short a) (s.radioAnswer (.short a) ||| (1#8 <<< b.val))] ∧
    s.clearBit a b = s.issueAll
      [.rd (.short a) (s.radioAnswer (.short a)), .wr (.short a) (s.radioAnswer (.short a) &&& ~~~ (1#8 <<< b.val))] ∧
    s.rxDisable = s.setBit s.par.aBbreg1 s.par.bRxdecinv ∧ s.rxEnable = s.clearBit s.par.aBbreg1 s.par.bRxdecinv ∧
    s.rxFlush = s.setBit s.par.aRxflush s.par.bRxflush ∧ s.txTrigger = s.setBit s.par.aTxncon s.par.bTxntrig ∧
    s.txAckReq = s.setBit s.par.aTxncon s.par.bTxnackreq

/-- R127: `WriteBuf` is the long writes at consecutive addresses mod 2048, in increasing order. -/
def Obligations.WriteBufIssuesConsecutiveWrites : Prop :=
  ∀ (s : State) (a : BitVec 11) (bs : List Byte),
    s.writeBuf a bs = s.issueAll (writeEvents a bs) ∧ (writeEvents a bs).length = bs.length ∧
    ∀ k, (writeEvents a bs)[k]? = bs[k]?.map (fun b => BusEvent.wr (.long (a + BitVec.ofNat 11 k)) b)

/-- R128: `ReadBuf` is the long reads at consecutive addresses, byte `k` laid at `HBUF` index `d + k`. -/
def Obligations.ReadBufLaysAnswersIntoTheBuffer : Prop :=
  ∀ (s : State) (a : BitVec 11) (d : BitVec 9) (n : Nat), n ≤ 512 → ∃ bs m, bs.length = n ∧
    (∀ k, (readEvents a bs)[k]? = bs[k]?.map (fun b => BusEvent.rd (.long (a + BitVec.ofNat 11 k)) b)) ∧
    s.Answered (readEvents a bs) ∧
    s.readBuf a d n = { s.issueAll (readEvents a bs) with hbuf := m } ∧
    ∀ j, m.read j.toNat = overlaid s.hbuf d bs j

/-- R90, R91: the fields of the result word and the codes. -/
def Obligations.ResultWordHoldsStatusAndBytes : Prop :=
  (∀ st b0 b1 b2, (resultWord st b0 b1 b2).extractLsb' 0 4 = statusCode st ∧
    (resultWord st b0 b1 b2).extractLsb' 4 4 = 0#4 ∧ (resultWord st b0 b1 b2).extractLsb' 8 8 = b0 ∧
    (resultWord st b0 b1 b2).extractLsb' 16 8 = b1 ∧ (resultWord st b0 b1 b2).extractLsb' 24 8 = b2) ∧
  statusCode .ok = 0#4 ∧ statusCode .bufferTooSmall = 1#4 ∧ statusCode .channelBusy = 2#4 ∧ statusCode .ioFailure = 3#4 ∧
  statusCode .aborted = 4#4 ∧ statusCode .sessionOpen = 5#4 ∧ statusCode .noSession = 6#4 ∧
  statusCode .illegalCommand = 7#4

/-! ## Register access -/

/-- R129: RDS, its words, its effect and its only exception. -/
def Obligations.RdsReadsOneShortRegister : Prop :=
  (∀ (addr : BitVec 11) (s : State),
    let loc := BusAddr.short (addr.extractLsb' 0 6)
    let v := s.radioAnswer loc
    exec (.rds addr) s =
      .next { s.issueAll [.rd loc v] with result := 0#8 ++ 0#8 ++ v ++ 0x00#8, busy := false }) ∧
  Encodes 0xFFF800FF#32 0x00000008#32 (fun w => .rds (w.extractLsb' 8 11)) ∧ ReservedBitsRaise 0x8#4 0xFFF800F0#32

/-- R130: WRS. -/
def Obligations.WrsWritesOneShortRegister : Prop :=
  (∀ (addr : BitVec 11) (data : Byte) (s : State),
    exec (.wrs addr data) s =
      .next { s.issueAll [.wr (.short (addr.extractLsb' 0 6)) data] with result := 0#32, busy := false }) ∧
  Encodes 0x00F800FF#32 0x00000009#32 (fun w => .wrs (w.extractLsb' 8 11) (w.extractLsb' 24 8)) ∧
  ReservedBitsRaise 0x9#4 0x00F800F0#32

/-- R131: RDL. -/
def Obligations.RdlReadsOneLongRegister : Prop :=
  (∀ (addr : BitVec 11) (s : State),
    let v := s.radioAnswer (.long addr)
    exec (.rdl addr) s =
      .next { s.issueAll [.rd (.long addr) v] with result := 0#8 ++ 0#8 ++ v ++ 0x00#8, busy := false }) ∧
  Encodes 0xFFF800FF#32 0x0000000A#32 (fun w => .rdl (w.extractLsb' 8 11)) ∧ ReservedBitsRaise 0xA#4 0xFFF800F0#32

/-- R132: WRL. -/
def Obligations.WrlWritesOneLongRegister : Prop :=
  (∀ (addr : BitVec 11) (data : Byte) (s : State),
    exec (.wrl addr data) s = .next { s.issueAll [.wr (.long addr) data] with result := 0#32, busy := false }) ∧
  Encodes 0x00F800FF#32 0x0000000B#32 (fun w => .wrl (w.extractLsb' 8 11) (w.extractLsb' 24 8)) ∧
  ReservedBitsRaise 0xB#4 0x00F800F0#32

/-! ## Transmit -/

/-- R140: TX with its payload in `HBUF`: the four identity reads, the FIFO image with the synthesised header, the trigger, and
`SEQ` counted. -/
def Obligations.TxTransmitsTheSynthesisedFrame : Prop :=
  (∀ (dest : BitVec 16) (plen : BitVec 8) (payload : List Byte) (s : State), payload.length = plen.toNat →
    (∀ k, k < plen.toNat → s.hbuf.read k = payload[k]?) →
    ∃ sL sH pL pH t,
      let flen := 9#8 + plen
      let header := [s.par.fcf0, s.par.fcf1, s.seq, pL, pH, dest.extractLsb' 0 8, dest.extractLsb' 8 8, sL, sH]
      let es := [.rd (.short s.par.aSadrl) sL, .rd (.short s.par.aSadrh) sH, .rd (.short s.par.aPanidl) pL,
          .rd (.short s.par.aPanidh) pH] ++
        writeEvents s.par.aTxnfifo ([9#8, flen] ++ header ++ payload) ++ setBitEvents s.par.aTxncon s.par.bTxntrig t
      s.Answered es ∧ es.length = 17 + plen.toNat ∧
      exec (.tx dest plen) s = .next { s.issueAll es with
        seq := s.seq + 1#8, result := 0#8 ++ flen ++ s.seq ++ 0x00#8, busy := false }) ∧
  Encodes 0x000000FF#32 0x00000001#32 (fun w => .tx (w.extractLsb' 16 16) (w.extractLsb' 8 8)) ∧
  ReservedBitsRaise 0x1#4 0x000000F0#32

/-- R141: TXRAW with its frame in `HBUF`: the ack request, the FIFO image as the host supplied it, the trigger. -/
def Obligations.TxrawTransmitsTheHostsFrame : Prop :=
  (∀ (hlen flen : BitVec 8) (frame : List Byte) (s : State), frame.length = flen.toNat →
    (∀ k, k < flen.toNat → s.hbuf.read k = frame[k]?) →
    ∃ a t,
      let es := setBitEvents s.par.aTxncon s.par.bTxnackreq a ++
        writeEvents s.par.aTxnfifo ([hlen, flen] ++ frame) ++ setBitEvents s.par.aTxncon s.par.bTxntrig t
      s.Answered es ∧ es.length = 6 + flen.toNat ∧
      exec (.txraw hlen flen) s = .next { s.issueAll es with result := 0#32, busy := false }) ∧
  Encodes 0xFF0000FF#32 0x00000002#32 (fun w => .txraw (w.extractLsb' 8 8) (w.extractLsb' 16 8)) ∧
  ReservedBitsRaise 0x2#4 0xFF0000F0#32

/-- R142: TXRES. -/
def Obligations.TxresClassifiesTheStatusByte : Prop :=
  (∀ s : State,
    let v := s.radioAnswer (.short s.par.aTxstat)
    let code : BitVec 4 :=
      if v.getLsbD s.par.bTxnstat = false then 0#4 else if v.getLsbD s.par.bCcafail = true then 2#4 else 3#4
    exec .txres s = .next { s.issueAll [.rd (.short s.par.aTxstat) v] with
      result := 0#8 ++ 0#8 ++ v ++ 0#4 ++ code, busy := false }) ∧
  Encodes 0xFFFFFFFF#32 0x00000003#32 (fun _ => .txres) ∧ ReservedBitsRaise 0x3#4 0xFFFFFFF0#32

/-- R102: the default frame control bytes: data, no security, nothing pending, ack requested, PAN id compressed, short
addresses at both ends. -/
def Obligations.FrameControlIsThatOfASimpleDataFrame : Prop :=
  let fcf : BitVec 16 := Params.default.fcf1 ++ Params.default.fcf0
  fcf.extractLsb' 0 3 = 0b001#3 ∧ fcf.getLsbD 3 = false ∧ fcf.getLsbD 4 = false ∧ fcf.getLsbD 5 = true ∧
    fcf.getLsbD 6 = true ∧ fcf.extractLsb' 7 3 = 0b000#3 ∧ fcf.extractLsb' 10 2 = 0b10#2 ∧ fcf.extractLsb' 12 2 = 0b00#2 ∧
    fcf.extractLsb' 14 2 = 0b10#2 ∧ Params.default.fcf0 = 0x61#8 ∧ Params.default.fcf1 = 0x88#8

/-- The sequence law (R143): whatever accesses the host makes in between, commands legal or not among them, a legal TX carries
the number of `SEQ` at the start plus the legal TX commands since, and it stands in the header's sequence-number byte. -/
def Obligations.SequenceNumbersCountTransmissions : Prop :=
  ∀ (acts : List HostAct) (a : HostAct) (s t u : State), runHost acts s = .next t → isTx a = true → hostAccess a t = .next u →
    let n := s.seq + BitVec.ofNat 8 (acts.countP isTx)
    t.seq = n ∧ u.seq = n + 1#8 ∧ u.result.extractLsb' 8 8 = n ∧ u.par = s.par ∧
    (u.trace.drop t.trace.length)[8]? = some (.wr (.long (s.par.aTxnfifo + 4#11)) n)

/-- R22: TX alone writes `SEQ`, by adding 1, and no other command reads it. -/
def Obligations.OnlyTxReadsOrWritesSeq : Prop :=
  (∀ dest plen (s t : State), exec (.tx dest plen) s = .next t → t.seq = s.seq + 1#8) ∧
  ∀ (i : Instr) (s : State) (x : Byte), (∀ dest plen, i ≠ .tx dest plen) →
    exec i { s with seq := x } = andThen (exec i s) (fun t => .next { t with seq := x }) ∧
    ∀ t, exec i s = .next t → t.seq = s.seq

/-! ## Receive -/

/-- R163: RXWHOLE: `SESSION_OPEN`, the rejection of a frame longer than the capacity, and the accepted frame. -/
def Obligations.RxwholeReceivesOrRejectsTheFrame : Prop :=
  (∀ (dst cap : BitVec 9) (s : State),
    (s.sessOpen = true → exec (.rxwhole dst cap) s = .next { s with result := 0x00000005#32, busy := false }) ∧
    (s.sessOpen = false → ∃ b len,
      let start := disableEvents s.par b ++ [.rd (.long s.par.aRxfifo) len]
      (cap.toNat < len.toNat → ∃ f e,
        let es := start ++ flushEnableEvents s.par f e
        s.Answered es ∧ es.length = 7 ∧
        exec (.rxwhole dst cap) s =
          .next { s.issueAll es with result := 0#8 ++ 0#8 ++ len ++ 0x01#8, busy := false }) ∧
      (len.toNat ≤ cap.toNat → ∃ data lqi rssi f e m,
        let es := start ++ readEvents (s.par.aRxfifo + 1#11) (data ++ [lqi, rssi]) ++ flushEnableEvents s.par f e
        data.length = len.toNat ∧ s.Answered es ∧ es.length = 9 + len.toNat ∧
        (∀ j, m.read j.toNat = overlaid s.hbuf dst (len :: data) j) ∧
        exec (.rxwhole dst cap) s = .next { s.issueAll es with
          hbuf := m, sessLqi := lqi, sessRssi := rssi
          result := rssi ++ lqi ++ len ++ 0x00#8, busy := false }))) ∧
  Encodes 0xFC0000FF#32 0x00000004#32 (fun w => .rxwhole (w.extractLsb' 8 9) (w.extractLsb' 17 9)) ∧
  ReservedBitsRaise 0x4#4 0xFC0000F0#32

/-- R164: RXCHUNK.ABORT, in either session state. -/
def Obligations.AbortFlushesEnablesAndCloses : Prop :=
  (∀ (first : Bool) (dst cap : BitVec 9) (s : State), ∃ f e,
    let es := flushEnableEvents s.par f e
    s.Answered es ∧ es.length = 4 ∧
    exec (.rxchunkAbort first dst cap) s = .next { s.issueAll es with
      sessOpen := false, sessRem := 0#8, result := 0x00000004#32, busy := false }) ∧
  Encodes 0xFC0000EF#32 0x00000025#32 (fun w => .rxchunkAbort (w.getLsbD 4) (w.extractLsb' 8 9) (w.extractLsb' 17 9)) ∧
  ReservedBitsRaise 0x5#4 0xFC0000C0#32

/-- R165 (with the `Drain` and `Finish` of R161, R162): RXCHUNK.FIRST: its two errors, the frame that leaves a session open,
and the frame that completes in this call. -/
def Obligations.FirstChunkOpensTheSession : Prop :=
  (∀ (dst cap : BitVec 9) (s : State),
    (s.sessOpen = true → exec (.rxchunkFirst dst cap) s = .next { s with result := 0x00000005#32, busy := false }) ∧
    (s.sessOpen = false → cap = 0#9 →
      exec (.rxchunkFirst dst cap) s = .next { s with result := 0x00000001#32, busy := false }) ∧
    (s.sessOpen = false → cap ≠ 0#9 → ∃ b len data m,
      let start := disableEvents s.par b ++ readEvents s.par.aRxfifo (len :: data)
      let n := min len.toNat (cap.toNat - 1)
      data.length = n ∧ s.Answered start ∧
      (∀ j, m.read j.toNat = overlaid s.hbuf dst (len :: data) j) ∧
      (cap.toNat - 1 < len.toNat →
        start.length = 3 + n ∧
        exec (.rxchunkFirst dst cap) s = .next { s.issueAll start with
          hbuf := m, sessOpen := true, sessRem := len - BitVec.ofNat 8 n
          sessCur := s.par.aRxfifo + 1#11 + BitVec.ofNat 11 n
          result := 0#8 ++ 0#8 ++ (len - BitVec.ofNat 8 n) ++ 0x00#8, busy := false }) ∧
      (len.toNat ≤ cap.toNat - 1 → ∃ lqi rssi f e,
        let cur := s.par.aRxfifo + 1#11 + BitVec.ofNat 11 n
        let es := start ++ readEvents cur [lqi, rssi] ++ flushEnableEvents s.par f e
        s.Answered es ∧ es.length = 9 + n ∧
        exec (.rxchunkFirst dst cap) s = .next { s.issueAll es with
          hbuf := m, sessOpen := false, sessRem := 0#8, sessCur := cur + 2#11, sessLqi := lqi, sessRssi := rssi
          result := rssi ++ lqi ++ 0x00#8 ++ 0x00#8, busy := false }))) ∧
  Encodes 0xFC0000FF#32 0x00000015#32 (fun w => .rxchunkFirst (w.extractLsb' 8 9) (w.extractLsb' 17 9)) ∧
  ReservedBitsRaise 0x5#4 0xFC0000C0#32

/-- R166 (with the `Drain` and `Finish` of R161, R162): RXCHUNK.NEXT: `NO_SESSION`, a chunk that leaves bytes, and the chunk
that completes the session. -/
def Obligations.NextChunkContinuesTheSession : Prop :=
  (∀ (dst cap : BitVec 9) (s : State),
    (s.sessOpen = false → exec (.rxchunkNext dst cap) s = .next { s with result := 0x00000006#32, busy := false }) ∧
    (s.sessOpen = true → ∃ data m,
      let n := min s.sessRem.toNat cap.toNat
      let start := readEvents s.sessCur data
      data.length = n ∧ s.Answered start ∧
      (∀ j, m.read j.toNat = overlaid s.hbuf dst data j) ∧
      (cap.toNat < s.sessRem.toNat →
        start.length = n ∧
        exec (.rxchunkNext dst cap) s = .next { s.issueAll start with
          hbuf := m, sessRem := s.sessRem - BitVec.ofNat 8 n, sessCur := s.sessCur + BitVec.ofNat 11 n
          result := 0#8 ++ 0#8 ++ (s.sessRem - BitVec.ofNat 8 n) ++ 0x00#8, busy := false }) ∧
      (s.sessRem.toNat ≤ cap.toNat → ∃ lqi rssi f e,
        let cur := s.sessCur + BitVec.ofNat 11 n
        let es := start ++ readEvents cur [lqi, rssi] ++ flushEnableEvents s.par f e
        s.Answered es ∧ es.length = n + 6 ∧
        exec (.rxchunkNext dst cap) s = .next { s.issueAll es with
          hbuf := m, sessOpen := false, sessRem := 0#8, sessCur := cur + 2#11, sessLqi := lqi, sessRssi := rssi
          result := rssi ++ lqi ++ 0x00#8 ++ 0x00#8, busy := false }))) ∧
  Encodes 0xFC0000FF#32 0x00000005#32 (fun w => .rxchunkNext (w.extractLsb' 8 9) (w.extractLsb' 17 9)) ∧
  ReservedBitsRaise 0x5#4 0xFC0000C0#32

/-- R23: which commands set `SESS_OPEN` and which clear it; RXCHUNK.NEXT clears it only when it completes the session. -/
def Obligations.SessionOpensAndClosesOnlyByItsCommands : Prop :=
  ∀ (i : Instr) (s t : State), exec i s = .next t →
    (s.sessOpen = false → t.sessOpen = true → ∃ dst cap, i = .rxchunkFirst dst cap) ∧
    (s.sessOpen = true → t.sessOpen = false →
      (∃ first dst cap, i = .rxchunkAbort first dst cap) ∨
      (∃ dst cap, i = .rxchunkNext dst cap ∧ s.sessRem.toNat ≤ cap.toNat ∧ t.sessRem = 0#8))

/-- R202, R203 with the order of R209: an illegal word is reported before anything else, an abort reports no error, then
the session errors, then the capacity; POLL reports all its events together. -/
def Obligations.ErrorsAreReportedInOrder : Prop :=
  (∀ w (s : State), IllegalWord w → s.busy = false → startCommand w s = .next { s with result := 0x00000007#32 }) ∧
  (∀ w (s : State), ¬ IllegalWord w → w.extractLsb' 0 4 = 0x5#4 → w.getLsbD 5 = true → s.busy = false →
    ∃ t, startCommand w s = .next t ∧ t.result = 0x00000004#32) ∧
  (∀ dst cap (s : State), s.sessOpen = true →
    exec (.rxchunkFirst dst cap) s = .next { s with result := 0x00000005#32, busy := false } ∧
    exec (.rxwhole dst cap) s = .next { s with result := 0x00000005#32, busy := false }) ∧
  (∀ dst cap (s : State), s.sessOpen = false →
    exec (.rxchunkNext dst cap) s = .next { s with result := 0x00000006#32, busy := false } ∧
    exec (.rxchunkFirst dst 0#9) s = .next { s with result := 0x00000001#32, busy := false }) ∧
  ∀ p v, (eventFlags p v).getLsbD 0 = v.getLsbD p.bRxif ∧ (eventFlags p v).getLsbD 1 = v.getLsbD p.bTxnif ∧
    (eventFlags p v).getLsbD 2 = v.getLsbD p.bSecif

/-- R241: RXCHUNK writes at most the `CAP` bytes of `HBUF` from `DST` on, RXWHOLE at most `CAP` + 1, and no other command of the
FE writes `HBUF` at all. -/
def Obligations.ReceptionStaysInsideTheCapacity : Prop :=
  ∀ (dst cap j : BitVec 9) (s t : State),
    (exec (.rxchunkFirst dst cap) s = .next t ∨ exec (.rxchunkNext dst cap) s = .next t →
      cap.toNat ≤ (j - dst).toNat → t.hbuf.read j.toNat = s.hbuf.read j.toNat) ∧
    (exec (.rxwhole dst cap) s = .next t → cap.toNat < (j - dst).toNat → t.hbuf.read j.toNat = s.hbuf.read j.toNat) ∧
    ∀ i, (∀ d c, i ≠ .rxchunkFirst d c ∧ i ≠ .rxchunkNext d c ∧ i ≠ .rxwhole d c) → exec i s = .next t → t.hbuf = s.hbuf

/-- Chunked and whole reception agree (R167). R167's premise, that the radio answers the same bytes in both runs, is supplied here
by the model's choice that the answer is a function of the trace and the location (log 5): from the same idle state, for a frame that fits both, the same buffer, trailer
pair, bus trace and radio, however the frame is split. -/
def Obligations.ChunkedReceptionEqualsWhole : Prop :=
  ∀ (s : State) (d cap c1 : BitVec 9) (cs : List (BitVec 9)), s.sessOpen = false → c1 ≠ 0#9 →
    let len := s.rxDisable.radioAnswer (.long s.par.aRxfifo)
    len.toNat ≤ cap.toNat → len.toNat ≤ (c1.toNat - 1) + (cs.map BitVec.toNat).sum →
    ∃ t u, exec (.rxwhole d cap) s = .next t ∧ receiveInChunks d c1 cs s = .next u ∧
      t.hbuf = u.hbuf ∧ t.sessLqi = u.sessLqi ∧ t.sessRssi = u.sessRssi ∧ t.trace = u.trace ∧ t.radio = u.radio ∧
      t.result.extractLsb' 16 16 = u.result.extractLsb' 16 16 ∧ t.result.extractLsb' 8 8 = len ∧
      u.result.extractLsb' 0 16 = 0#16 ∧ u.sessOpen = false

/-- Boundedness (R168): each RXCHUNK command issues at most `CAP + 8` transactions. -/
def Obligations.ChunkCommandsAreBounded : Prop :=
  ∀ (dst cap : BitVec 9) (first : Bool) (s t : State),
    (exec (.rxchunkFirst dst cap) s = .next t → t.trace.length ≤ s.trace.length + cap.toNat + 8) ∧
    (exec (.rxchunkNext dst cap) s = .next t → t.trace.length ≤ s.trace.length + cap.toNat + 6) ∧
    (exec (.rxchunkAbort first dst cap) s = .next t → t.trace.length = s.trace.length + 4)

/-- Abort idempotence (R170): after an abort in any state the session is idle with nothing remaining, a second abort leaves the
same FE state, and RXCHUNK.FIRST then opens at the FIFO base. -/
def Obligations.AbortTwiceIsAbortOnce : Prop :=
  ∀ (first : Bool) (dst cap d c : BitVec 9) (s t : State), exec (.rxchunkAbort first dst cap) s = .next t →
    t.sessOpen = false ∧ t.sessRem = 0#8 ∧
    (∃ u, exec (.rxchunkAbort first dst cap) t = .next u ∧
      u = { t with trace := u.trace, radio := u.radio }) ∧
    (c ≠ 0#9 → ∃ u b v, exec (.rxchunkFirst d c) t = .next u ∧ u.result.extractLsb' 0 4 = 0#4 ∧
      (u.trace.drop t.trace.length).take 3 = disableEvents t.par b ++ [.rd (.long t.par.aRxfifo) v])

/-! ## Events -/

/-- R190, R192: POLL: one read, three bits decoded, every other bit dropped. -/
def Obligations.PollDecodesTheInterruptStatus : Prop :=
  (∀ s : State,
    let v := s.radioAnswer (.short s.par.aIntstat)
    let f : Byte := 0b00000#5 ++ BitVec.ofBool (v.getLsbD s.par.bSecif) ++ BitVec.ofBool (v.getLsbD s.par.bTxnif) ++
      BitVec.ofBool (v.getLsbD s.par.bRxif)
    exec .poll s = .next { s.issueAll [.rd (.short s.par.aIntstat) v] with
      result := 0#8 ++ 0#8 ++ f ++ 0x00#8, busy := false }) ∧
  Encodes 0xFFFFFFFF#32 0x00000006#32 (fun _ => .poll) ∧ ReservedBitsRaise 0x6#4 0xFFFFFFF0#32

/-- On the reference radio, whose flags nothing sets again (R71), the read of a first POLL or RDS of the interrupt status
clears it, so a POLL after either reports nothing (R191). -/
def Obligations.SecondPollReportsNothing : Prop :=
  ∀ (s t : State) (m : Rrm) (i : Instr), s.radio = .reference m → m.rs.wfZ 64 = true →
    (i = .poll ∨ ∃ addr : BitVec 11, i = .rds addr ∧ addr.extractLsb' 0 6 = s.par.aIntstat) → exec i s = .next t →
    ∃ u, exec .poll t = .next u ∧ u.result = 0#32

/-- R70, R71: what the reference radio answers after each kind of transaction, and what it counts. -/
def Obligations.ReferenceRadioKeepsItsArrays : Prop :=
  ∀ (p : Params) (m : Rrm), DistinctRegisters p → m.rs.wfZ 64 = true → m.rl.wfZ 2048 = true →
    (∀ a v, m.observe p (.rd (.long a) v) = m) ∧
    (∀ a v, let m' := m.observe p (.rd (.short a) v)
      (∀ loc, m'.answer loc = if loc = .short a ∧ a = p.aIntstat then 0#8 else m.answer loc) ∧
      m'.flushes = m.flushes ∧ m'.transmissions = m.transmissions) ∧
    (∀ a v, let m' := m.observe p (.wr (.long a) v)
      (∀ loc, m'.answer loc = if loc = .long a then v else m.answer loc) ∧
      m'.flushes = m.flushes ∧ m'.transmissions = m.transmissions) ∧
    (∀ a v, let m' := m.observe p (.wr (.short a) v)
      let kept := if a = p.aRxflush then v &&& ~~~ (1#8 <<< p.bRxflush.val)
        else if a = p.aTxncon then v &&& ~~~ (1#8 <<< p.bTxntrig.val) else v
      (∀ loc, m'.answer loc = if loc = .short a then kept else m.answer loc) ∧
      m'.flushes = m.flushes + (if a = p.aRxflush ∧ v.getLsbD p.bRxflush = true then 1 else 0) ∧
      m'.transmissions = m.transmissions + (if a = p.aTxncon ∧ v.getLsbD p.bTxntrig = true then 1 else 0))

/-! ## Rules of the whole machine -/

/-- Transactions of each command (R246), and the bytes each exchanges. -/
def Obligations.TransactionsPerCommand : Prop :=
  (∀ (s : State) (addr : BitVec 11) (data : Byte),
    Issues (exec (.rds addr) s) s 1 ∧ Issues (exec (.wrs addr data) s) s 1 ∧ Issues (exec (.rdl addr) s) s 1 ∧
    Issues (exec (.wrl addr data) s) s 1 ∧ Issues (exec .txres s) s 1 ∧ Issues (exec .poll s) s 1) ∧
  (∀ (s t : State) dest plen, exec (.tx dest plen) s = .next t → Issues (.next t) s (17 + plen.toNat)) ∧
  (∀ (s t : State) hlen flen, exec (.txraw hlen flen) s = .next t → Issues (.next t) s (6 + flen.toNat)) ∧
  (∀ (s : State) dst cap, s.sessOpen = false →
    let len := s.rxDisable.radioAnswer (.long s.par.aRxfifo)
    Issues (exec (.rxwhole dst cap) s) s (if cap.toNat < len.toNat then 7 else 9 + len.toNat) ∧
    (cap ≠ 0#9 → Issues (exec (.rxchunkFirst dst cap) s) s
      (3 + min len.toNat (cap.toNat - 1) + (if len.toNat ≤ cap.toNat - 1 then 6 else 0))) ∧
    (cap = 0#9 → Issues (exec (.rxchunkFirst dst cap) s) s 0) ∧ Issues (exec (.rxchunkNext dst cap) s) s 0) ∧
  (∀ (s : State) dst cap, s.sessOpen = true →
    Issues (exec (.rxchunkNext dst cap) s) s
      (min s.sessRem.toNat cap.toNat + (if s.sessRem.toNat ≤ cap.toNat then 6 else 0)) ∧
    Issues (exec (.rxwhole dst cap) s) s 0 ∧ Issues (exec (.rxchunkFirst dst cap) s) s 0) ∧
  (∀ (s : State) first dst cap, Issues (exec (.rxchunkAbort first dst cap) s) s 4) ∧
  (∀ (s : State) w, IllegalWord w → s.busy = false → Issues (startCommand w s) s 0) ∧
  ∀ (p : Params) e, (transportCalls p e).countP (fun c => c != .assertSelect && c != .releaseSelect) =
    match eventLoc e with | .short _ => 2 | .long _ => 3

/-- The short registers the commands touch (R64): the transactions of every command are at those or in the long space. -/
def Obligations.CommandsTouchOnlyTheirRegisters : Prop :=
  ∀ (i : Instr) (s t : State) e, exec i s = .next t → e ∈ t.trace.drop s.trace.length →
    eventLoc e ∈ touchedShort s.par i ∨ ∃ a, eventLoc e = .long a

/-- R57, R58, R65; that the parameters stay (log 2, R6) and that a step takes at most the first of the host's pending accesses
(log 1) is the model's choice: whatever a step does, it only appends transactions to the trace, the radio answers each read of them, and it
sees exactly them. -/
def Obligations.StepsOnlyExtendTheTrace : Prop :=
  ∀ s t : State, step s = .next t → ∃ es,
    s.Answered es ∧ t.trace = s.trace ++ es ∧ t.radio = (s.issueAll es).radio ∧ t.par = s.par ∧ t.host = s.host.tail

/-- R57: in every step the trace stays one the oracle answered. The oracle is a function of trace and location (log 5). -/
def Obligations.TraceStaysAnsweredByTheOracle : Prop := ∀ s t : State, s.TraceInv → step s = .next t → t.TraceInv

/-- R28, as log 14 reads it: between steps `BUSY` is 0. -/
def Obligations.BusyIsZeroBetweenSteps : Prop :=
  (∀ (i : Instr) (s t : State), exec i s = .next t → t.busy = false) ∧
  ∀ s t : State, s.busy = false → step s = .next t → t.busy = false

/-- The session invariant (R37) is kept by every step. -/
def Obligations.SessionInvariantIsKept : Prop := ∀ s t : State, s.SessionInv → step s = .next t → t.SessionInv

/-- `HBUF` and the reference radio's arrays keep their one canonical form in every step. The form, a sorted list, is the model's
(log 6, log 7). -/
def Obligations.MemoriesStayCanonical : Prop := ∀ s t : State, s.MemInv → step s = .next t → t.MemInv

/-- Every step keeps `RESULT[7:4]` 0 and a reserved status code out of `RESULT` (R90, R91, U5). -/
def Obligations.ResultNeverHoldsAReservedCode : Prop := ∀ s t : State, s.ResultInv → step s = .next t → t.ResultInv

/-- Reception stays disabled for the whole session (R35, R169): in every step that does not write the receive-disable register
by WRS, while a session is open the last write of that register in the trace is a disable. -/
def Obligations.ReceptionStaysDisabledInASession : Prop :=
  ∀ s t : State, DistinctRegisters s.par → s.HostSparesReception → s.ReceptionHeld → step s = .next t → t.ReceptionHeld

/-- While a session stays open (R169), no command but WRS writes the receive-disable or the receive-flush register. -/
def Obligations.OpenSessionIsNotFlushedOrEnabled : Prop :=
  ∀ (i : Instr) (s t : State) (a : BitVec 6) v, DistinctRegisters s.par → (∀ addr data, i ≠ .wrs addr data) →
    s.sessOpen = true → t.sessOpen = true → exec i s = .next t → a = s.par.aBbreg1 ∨ a = s.par.aRxflush →
    .wr (.short a) v ∉ t.trace.drop s.trace.length

/-- The invariants hold right after reset (R36, R37). That the registers are distinct holds of R6's defaults, which the model's
choice puts into the reset state (log 2). -/
def Obligations.ResetMeetsTheInvariants : Prop :=
  State.reset.SessionInv ∧ State.reset.MemInv ∧ State.reset.ResultInv ∧ State.reset.TraceInv ∧ State.reset.ReceptionHeld ∧
    State.reset.busy = false ∧ DistinctRegisters State.reset.par

/-- `SESS_LQI` and `SESS_RSSI` are never observable before they are written (R26, R36): whatever they hold, a step gives the
same outcome and the same state but for these two registers. So the values the model names at reset (log 4) are of no
account. -/
def Obligations.TrailerRegistersAreInvisible : Prop :=
  ∀ (s : State) (x y : Byte),
    let hide := fun t : State => (.next { t with sessLqi := 0#8, sessRssi := 0#8 } : Out)
    andThen (step { s with sessLqi := x, sessRssi := y }) hide = andThen (step s) hide
end

