-- ==== Sys2Proof/Laws/Codec.lean ====
section
/-! SUPPORT. The fields of encoded words, the reserved bits of each format, and words as the sum of their fields. -/
namespace Sys2Proof

/-! ## Parts of parts, and of masked words -/

theorem extractLsb'_extractLsb'_of_le {n : Nat} (w : BitVec n) {a k b l : Nat} (h : b + l ≤ k) :
    (w.extractLsb' a k).extractLsb' b l = w.extractLsb' (a + b) l := by
  apply BitVec.eq_of_getLsbD_eq
  intro i hi
  simp only [BitVec.getLsbD_extractLsb', hi, decide_true, Bool.true_and]
  rw [decide_eq_true (show b + i < k by omega), Bool.true_and, Nat.add_assoc]

/-- A part of a word that a mask keeps is that part of the masked word. -/
theorem part_of_masked {w mask value : Word} (h : w &&& mask = value) {lo len : Nat}
    (hm : mask.extractLsb' lo len = BitVec.allOnes len) : w.extractLsb' lo len = value.extractLsb' lo len := by
  rw [← h, BitVec.extractLsb'_and, hm, BitVec.and_allOnes]

/-! ## Fields of the formats -/

@[simp] theorem fieldOp_encodeN (op : BitVec 4) : fieldOp (encodeN op) = op := by
  simp (disch := decide) only [fieldOp, encodeN, BitVec.extractLsb'_append_eq_of_add_le, BitVec.extractLsb'_eq_self]

@[simp] theorem reservedN_encodeN (op : BitVec 4) : reservedN (encodeN op) = true := by
  simp (disch := decide) only [reservedN, encodeN, BitVec.extractLsb'_append_eq_of_le]; rfl

@[simp] theorem fieldOp_encodeT (dest : BitVec 16) (plen : BitVec 8) : fieldOp (encodeT dest plen) = 0x1#4 := by
  simp (disch := decide) only [fieldOp, encodeT, BitVec.extractLsb'_append_eq_of_add_le, BitVec.extractLsb'_eq_self]

@[simp] theorem reservedT_encodeT (dest : BitVec 16) (plen : BitVec 8) : reservedT (encodeT dest plen) = true := by
  simp (disch := decide) only [reservedT, fieldFl, encodeT, BitVec.extractLsb'_append_eq_of_add_le,
    BitVec.extractLsb'_append_eq_of_le]; rfl

@[simp] theorem fieldDest_encodeT (dest : BitVec 16) (plen : BitVec 8) : fieldDest (encodeT dest plen) = dest := by
  simp (disch := decide) only [fieldDest, encodeT, BitVec.extractLsb'_append_eq_of_le]; simp

@[simp] theorem fieldPlen_encodeT (dest : BitVec 16) (plen : BitVec 8) : fieldPlen (encodeT dest plen) = plen := by
  simp (disch := decide) only [fieldPlen, encodeT, BitVec.extractLsb'_append_eq_of_add_le,
    BitVec.extractLsb'_append_eq_of_le]; simp

@[simp] theorem fieldOp_encodeW (hlen flen : BitVec 8) : fieldOp (encodeW hlen flen) = 0x2#4 := by
  simp (disch := decide) only [fieldOp, encodeW, BitVec.extractLsb'_append_eq_of_add_le, BitVec.extractLsb'_eq_self]

@[simp] theorem reservedW_encodeW (hlen flen : BitVec 8) : reservedW (encodeW hlen flen) = true := by
  simp (disch := decide) only [reservedW, fieldFl, encodeW, BitVec.extractLsb'_append_eq_of_add_le,
    BitVec.extractLsb'_append_eq_of_le]; rfl

@[simp] theorem fieldHlen_encodeW (hlen flen : BitVec 8) : fieldHlen (encodeW hlen flen) = hlen := by
  simp (disch := decide) only [fieldHlen, encodeW, BitVec.extractLsb'_append_eq_of_add_le,
    BitVec.extractLsb'_append_eq_of_le]; simp

@[simp] theorem fieldFlen_encodeW (hlen flen : BitVec 8) : fieldFlen (encodeW hlen flen) = flen := by
  simp (disch := decide) only [fieldFlen, encodeW, BitVec.extractLsb'_append_eq_of_add_le,
    BitVec.extractLsb'_append_eq_of_le]; simp

@[simp] theorem fieldOp_encodeB (op : BitVec 4) (a f : Bool) (dst cap : BitVec 9) : fieldOp (encodeB op a f dst cap) = op := by
  simp (disch := decide) only [fieldOp, encodeB, BitVec.extractLsb'_append_eq_of_add_le, BitVec.extractLsb'_eq_self]

@[simp] theorem reservedBChunk_encodeB (op : BitVec 4) (a f : Bool) (dst cap : BitVec 9) :
    reservedBChunk (encodeB op a f dst cap) = true := by
  simp (disch := decide) only [reservedBChunk, encodeB, BitVec.extractLsb'_append_eq_of_add_le,
    BitVec.extractLsb'_append_eq_of_le]; rfl

@[simp] theorem fieldFirst_encodeB (op : BitVec 4) (a f : Bool) (dst cap : BitVec 9) :
    fieldFirst (encodeB op a f dst cap) = f := by
  simp only [fieldFirst, encodeB, BitVec.getLsbD_append]; simp

@[simp] theorem fieldAbort_encodeB (op : BitVec 4) (a f : Bool) (dst cap : BitVec 9) :
    fieldAbort (encodeB op a f dst cap) = a := by
  simp only [fieldAbort, encodeB, BitVec.getLsbD_append]; simp

@[simp] theorem fieldDst_encodeB (op : BitVec 4) (a f : Bool) (dst cap : BitVec 9) :
    fieldDst (encodeB op a f dst cap) = dst := by
  simp (disch := decide) only [fieldDst, encodeB, BitVec.extractLsb'_append_eq_of_add_le,
    BitVec.extractLsb'_append_eq_of_le]; simp

@[simp] theorem fieldCap_encodeB (op : BitVec 4) (a f : Bool) (dst cap : BitVec 9) :
    fieldCap (encodeB op a f dst cap) = cap := by
  simp (disch := decide) only [fieldCap, encodeB, BitVec.extractLsb'_append_eq_of_add_le,
    BitVec.extractLsb'_append_eq_of_le]; simp

@[simp] theorem reservedBWhole_encodeB (op : BitVec 4) (dst cap : BitVec 9) :
    reservedBWhole (encodeB op false false dst cap) = true := by
  have hf : fieldFl (encodeB op false false dst cap) = 0#4 := by
    apply BitVec.eq_of_getLsbD_eq
    intro i hi
    simp only [fieldFl, BitVec.getLsbD_extractLsb', encodeB, BitVec.getLsbD_append]
    match i with
    | 0 | 1 | 2 | 3 => rfl
  simp (disch := decide) only [reservedBWhole, hf]
  simp (disch := decide) only [encodeB, BitVec.extractLsb'_append_eq_of_le]
  rfl

@[simp] theorem fieldOp_encodeA (op : BitVec 4) (addr : BitVec 11) (data : BitVec 8) :
    fieldOp (encodeA op addr data) = op := by
  simp (disch := decide) only [fieldOp, encodeA, BitVec.extractLsb'_append_eq_of_add_le, BitVec.extractLsb'_eq_self]

@[simp] theorem reservedAWrite_encodeA (op : BitVec 4) (addr : BitVec 11) (data : BitVec 8) :
    reservedAWrite (encodeA op addr data) = true := by
  simp (disch := decide) only [reservedAWrite, fieldFl, encodeA, BitVec.extractLsb'_append_eq_of_add_le,
    BitVec.extractLsb'_append_eq_of_le]; rfl

@[simp] theorem reservedARead_encodeA (op : BitVec 4) (addr : BitVec 11) : reservedARead (encodeA op addr 0#8) = true := by
  have h : (encodeA op addr 0#8).extractLsb' 19 13 = 0#13 := by
    apply BitVec.eq_of_getLsbD_eq
    intro i hi
    simp only [BitVec.getLsbD_extractLsb', encodeA, BitVec.getLsbD_append]
    simp only [hi, show ¬ 19 + i < 4 by omega, show ¬ 19 + i - 4 < 4 by omega, show ¬ 19 + i - 4 - 4 < 11 by omega,
      if_false]
    simp
  simp only [reservedARead, h]
  simp (disch := decide) only [fieldFl, encodeA, BitVec.extractLsb'_append_eq_of_add_le,
    BitVec.extractLsb'_append_eq_of_le]; rfl

@[simp] theorem fieldAddr_encodeA (op : BitVec 4) (addr : BitVec 11) (data : BitVec 8) :
    fieldAddr (encodeA op addr data) = addr := by
  simp (disch := decide) only [fieldAddr, encodeA, BitVec.extractLsb'_append_eq_of_add_le,
    BitVec.extractLsb'_append_eq_of_le]; simp

@[simp] theorem fieldData_encodeA (op : BitVec 4) (addr : BitVec 11) (data : BitVec 8) :
    fieldData (encodeA op addr data) = data := by
  simp (disch := decide) only [fieldData, encodeA, BitVec.extractLsb'_append_eq_of_le]; simp

/-! ## A word is the sum of its fields -/

theorem wordOfBytes_parts (w : Word) :
    wordOfBytes (w.extractLsb' 0 8) (w.extractLsb' 8 8) (w.extractLsb' 16 8) (w.extractLsb' 24 8) = w := by
  apply BitVec.eq_of_getLsbD_eq
  intro i hi
  simp only [wordOfBytes, BitVec.getLsbD_append, BitVec.getLsbD_extractLsb']
  grind

/-- The bytes of a word decode as the word does (R31). -/
theorem decodeBytes_wordBytes (w : Word) (rest : List Byte) : decodeBytes (wordBytes w ++ rest) =
    match decode w with
    | .ok i => .ok (i, rest)
    | .error e => .error e :=
  congrArg (fun v => (match decode v with
    | .ok i => .ok (i, rest)
    | .error e => .error e : Except DecodeError (Instr × List Byte))) (wordOfBytes_parts w)

theorem word_eq_partsN (w : Word) : w = w.extractLsb' 4 28 ++ fieldOp w := by
  apply BitVec.eq_of_getLsbD_eq
  intro i hi
  simp only [fieldOp, BitVec.getLsbD_append, BitVec.getLsbD_extractLsb']
  grind

theorem word_eq_partsT (w : Word) : w = fieldDest w ++ fieldPlen w ++ fieldFl w ++ fieldOp w := by
  apply BitVec.eq_of_getLsbD_eq
  intro i hi
  simp only [fieldOp, fieldDest, fieldPlen, fieldFl, BitVec.getLsbD_append, BitVec.getLsbD_extractLsb']
  grind

theorem word_eq_partsW (w : Word) : w = w.extractLsb' 24 8 ++ fieldFlen w ++ fieldHlen w ++ fieldFl w ++ fieldOp w := by
  apply BitVec.eq_of_getLsbD_eq
  intro i hi
  simp only [fieldOp, fieldFlen, fieldHlen, fieldFl, BitVec.getLsbD_append, BitVec.getLsbD_extractLsb']
  grind

theorem word_eq_partsB (w : Word) : w = w.extractLsb' 26 6 ++ fieldCap w ++ fieldDst w ++ w.extractLsb' 6 2 ++
    BitVec.ofBool (fieldAbort w) ++ BitVec.ofBool (fieldFirst w) ++ fieldOp w := by
  apply BitVec.eq_of_getLsbD_eq
  intro i hi
  simp only [fieldOp, fieldCap, fieldDst, fieldAbort, fieldFirst, BitVec.getLsbD_append, BitVec.getLsbD_extractLsb',
    BitVec.getLsbD_ofBool]
  grind

theorem word_eq_partsA (w : Word) : w = fieldData w ++ w.extractLsb' 19 5 ++ fieldAddr w ++ fieldFl w ++ fieldOp w := by
  apply BitVec.eq_of_getLsbD_eq
  intro i hi
  simp only [fieldOp, fieldData, fieldAddr, fieldFl, BitVec.getLsbD_append, BitVec.getLsbD_extractLsb']
  grind

end Sys2Proof

namespace Sys2Proof.Machine

/-! ## Offsets of the host window -/

theorem hbufIndex_of_lt {off : BitVec 10} (h : off.toNat < 0x200) : hbufIndex off = none := by
  have hb : off.getLsbD 9 = false := by rw [BitVec.getLsbD, Nat.testBit_lt_two_pow (by omega)]
  simp only [hbufIndex, hb]
  rfl

@[simp] theorem hbufIndex_hbuf (i : BitVec 9) : hbufIndex (0x200#10 + i.setWidth 10) = some i := by
  have h := i.isLt
  have h1 : (0x200#10 + i.setWidth 10).toNat = 512 + i.toNat := by simp; omega
  have hb : (0x200#10 + i.setWidth 10).getLsbD 9 = true := by
    rw [BitVec.getLsbD, h1, Nat.testBit_eq_decide_div_mod_eq]; simp; omega
  simp only [hbufIndex, hb, if_true]
  congr 1
  apply BitVec.eq_of_toNat_eq
  rw [BitVec.extractLsb'_toNat, h1]
  simp
  omega

theorem hbufOffset_ne_cmd (i : BitVec 9) : 0x200#10 + i.setWidth 10 ≠ offCmd := by
  intro h
  have := hbufIndex_hbuf i
  rw [h] at this
  simp [hbufIndex, offCmd] at this

/-! ## Reserved bits as masks (R82 to R86) -/

/-- A bit that a mask fixes. -/
theorem getLsbD_of_masked {w mask value : Word} (h : w &&& mask = value) {k : Nat} (hm : mask.getLsbD k = true) : w.getLsbD k = value.getLsbD k := by
  rw [← h, BitVec.getLsbD_and, hm, Bool.and_true]

theorem and_mask_of_part {w : Word} {lo len : Nat} (h : w.extractLsb' lo len = 0#len) :
    w &&& ((BitVec.allOnes len).setWidth 32 <<< lo) = 0#32 := by
  apply BitVec.eq_of_getLsbD_eq
  intro i hi
  simp only [BitVec.getLsbD_and, BitVec.getLsbD_shiftLeft, BitVec.getLsbD_setWidth, BitVec.getLsbD_allOnes, BitVec.getLsbD_zero]
  by_cases hlo : i < lo
  · simp [hlo]
  · by_cases hk : i - lo < len
    · have := congrArg (·.getLsbD (i - lo)) h
      simp only [BitVec.getLsbD_extractLsb', hk, decide_true, Bool.true_and, BitVec.getLsbD_zero] at this
      rw [show lo + (i - lo) = i by omega] at this
      simp [this]
    · simp [hk]

theorem and_two_masks_of_parts {w : Word} {lo len lo' len' : Nat} (h : w.extractLsb' lo len = 0#len) (h' : w.extractLsb' lo' len' = 0#len') {m : Word}
    (hm : m = ((BitVec.allOnes len).setWidth 32 <<< lo) ||| ((BitVec.allOnes len').setWidth 32 <<< lo')) :
    w &&& m = 0#32 := by
  rw [hm]
  have a := and_mask_of_part h
  have b := and_mask_of_part h'
  apply BitVec.eq_of_getLsbD_eq
  intro i hi
  have a := congrArg (·.getLsbD i) a
  have b := congrArg (·.getLsbD i) b
  simp only [BitVec.getLsbD_and, BitVec.getLsbD_or, BitVec.getLsbD_zero] at a b ⊢
  rw [Bool.and_or_distrib_left, a, b]; rfl

theorem reservedT_iff {w : Word} : reservedT w = true ↔ w &&& 0x000000F0#32 = 0#32 := by
  constructor
  · intro h
    exact and_mask_of_part (lo := 4) (len := 4) (by simpa [reservedT, fieldFl] using h)
  · intro h; simpa [reservedT, fieldFl] using (part_of_masked h (lo := 4) (len := 4) (by decide)).trans (by decide)

theorem reservedN_iff {w : Word} : reservedN w = true ↔ w &&& 0xFFFFFFF0#32 = 0#32 := by
  constructor
  · intro h
    exact and_mask_of_part (lo := 4) (len := 28) (by simpa [reservedN] using h)
  · intro h; simpa [reservedN] using (part_of_masked h (lo := 4) (len := 28) (by decide)).trans (by decide)

theorem reservedW_iff {w : Word} : reservedW w = true ↔ w &&& 0xFF0000F0#32 = 0#32 := by
  constructor
  · intro h
    have h' : w.extractLsb' 24 8 = 0#8 ∧ fieldFl w = 0#4 := by simpa [reservedW] using h
    exact and_two_masks_of_parts h'.1 h'.2 (by decide)
  · intro h
    have : w.extractLsb' 4 4 = 0#4 := part_of_masked h (by decide)
    have : w.extractLsb' 24 8 = 0#8 := part_of_masked h (by decide)
    simp_all [reservedW, fieldFl]

theorem reservedBWhole_iff {w : Word} : reservedBWhole w = true ↔ w &&& 0xFC0000F0#32 = 0#32 := by
  constructor
  · intro h
    have h' : w.extractLsb' 26 6 = 0#6 ∧ fieldFl w = 0#4 := by simpa [reservedBWhole] using h
    exact and_two_masks_of_parts h'.1 h'.2 (by decide)
  · intro h
    have : w.extractLsb' 4 4 = 0#4 := part_of_masked h (by decide)
    have : w.extractLsb' 26 6 = 0#6 := part_of_masked h (by decide)
    simp_all [reservedBWhole, fieldFl]

theorem reservedBChunk_iff {w : Word} : reservedBChunk w = true ↔ w &&& 0xFC0000C0#32 = 0#32 := by
  constructor
  · intro h
    have h' : w.extractLsb' 26 6 = 0#6 ∧ w.extractLsb' 6 2 = 0#2 := by simpa [reservedBChunk] using h
    exact and_two_masks_of_parts h'.1 h'.2 (by decide)
  · intro h
    have : w.extractLsb' 6 2 = 0#2 := part_of_masked h (by decide)
    have : w.extractLsb' 26 6 = 0#6 := part_of_masked h (by decide)
    simp_all [reservedBChunk]

theorem reservedARead_iff {w : Word} : reservedARead w = true ↔ w &&& 0xFFF800F0#32 = 0#32 := by
  constructor
  · intro h
    have h' : w.extractLsb' 19 13 = 0#13 ∧ fieldFl w = 0#4 := by simpa [reservedARead] using h
    exact and_two_masks_of_parts h'.1 h'.2 (by decide)
  · intro h
    have : w.extractLsb' 4 4 = 0#4 := part_of_masked h (by decide)
    have : w.extractLsb' 19 13 = 0#13 := part_of_masked h (by decide)
    simp_all [reservedARead, fieldFl]

theorem reservedAWrite_iff {w : Word} : reservedAWrite w = true ↔ w &&& 0x00F800F0#32 = 0#32 := by
  constructor
  · intro h
    have h' : w.extractLsb' 19 5 = 0#5 ∧ fieldFl w = 0#4 := by simpa [reservedAWrite] using h
    exact and_two_masks_of_parts h'.1 h'.2 (by decide)
  · intro h
    have : w.extractLsb' 4 4 = 0#4 := part_of_masked h (by decide)
    have : w.extractLsb' 19 5 = 0#5 := part_of_masked h (by decide)
    simp_all [reservedAWrite, fieldFl]

end Sys2Proof.Machine
end

