-- ==== Sys2Proof/Laws/Memory.lean ====
section
/-! SUPPORT. Laws of the sparse memory: reading after a write, the canonical forms, slices. -/
namespace Sys2Proof.Machine

theorem Memory.read_write (m : Memory) (a : Nat) (b : Byte) (c : Nat) :
    (m.write a b).read c = if c = a then some b else m.read c := by
  induction m with
  | nil => simp [Memory.write, Memory.read, eq_comm]
  | cons x m ih =>
    obtain ⟨k, v⟩ := x
    simp only [Memory.write]
    split
    · simp [Memory.read, eq_comm]
    · split
      · subst a; simp only [Memory.read]; by_cases h : c = k <;> simp [h, eq_comm]
      · rename_i h1 h2
        simp only [Memory.read, ih]
        by_cases h : k = c
        · subst h; simp; omega
        · simp [h]

@[simp] theorem Memory.read_write_same (m : Memory) (a : Nat) (b : Byte) : (m.write a b).read a = some b := by
  simp [Memory.read_write]

theorem Memory.read_write_other (m : Memory) {a c : Nat} (b : Byte) (h : c ≠ a) : (m.write a b).read c = m.read c := by
  simp [Memory.read_write, h]

theorem Memory.rising_mono {m : Memory} {lo lo' : Nat} (h : lo' ≤ lo) (hm : m.rising lo = true) : m.rising lo' = true := by
  cases m with
  | nil => rfl
  | cons x m =>
    obtain ⟨k, v⟩ := x
    simp only [Memory.rising, Bool.and_eq_true, decide_eq_true_eq] at hm ⊢
    exact ⟨by omega, hm.2⟩

theorem Memory.rising_write {m : Memory} {lo a : Nat} (b : Byte) (hm : m.rising lo = true) (h : lo ≤ a) :
    (m.write a b).rising lo = true := by
  induction m generalizing lo with
  | nil => simp [Memory.write, Memory.rising, h]
  | cons x m ih =>
    obtain ⟨k, v⟩ := x
    simp only [Memory.rising, Bool.and_eq_true, decide_eq_true_eq] at hm
    simp only [Memory.write]
    split
    · simp only [Memory.rising, Bool.and_eq_true, decide_eq_true_eq]
      exact ⟨h, by omega, hm.2⟩
    · split
      · subst a; simp only [Memory.rising, Bool.and_eq_true, decide_eq_true_eq]; exact ⟨h, hm.2⟩
      · simp only [Memory.rising, Bool.and_eq_true, decide_eq_true_eq]
        exact ⟨hm.1, ih hm.2 (by omega)⟩

theorem Memory.mem_write {m : Memory} {a : Nat} {b : Byte} {c : Host.Cell} (h : c ∈ m.write a b) : c = (a, b) ∨ c ∈ m := by
  induction m with
  | nil => simpa [Memory.write] using h
  | cons x m ih =>
    obtain ⟨k, v⟩ := x
    simp only [Memory.write] at h
    split at h
    · simpa using h
    · split at h
      · rcases List.mem_cons.mp h with h | h
        · exact .inl h
        · exact .inr (List.mem_cons_of_mem _ h)
      · rcases List.mem_cons.mp h with h | h
        · exact .inr (h ▸ List.mem_cons_self)
        · exact (ih h).imp_right (List.mem_cons_of_mem _)

/-- A write inside the buffer keeps the canonical form of `HBUF`. -/
theorem Memory.wf_write {m : Memory} (a : Nat) (b : Byte) (hm : m.wf = true) (ha : a < Config.hbufSize) :
    (m.write a b).wf = true := by
  simp only [Memory.wf, Bool.and_eq_true, List.all_eq_true, decide_eq_true_eq] at hm ⊢
  refine ⟨Memory.rising_write b hm.1 (Nat.zero_le _), fun c hc => ?_⟩
  rcases Memory.mem_write hc with rfl | h
  · exact ha
  · exact hm.2 c h

theorem Memory.wf_nil : Memory.wf [] = true := rfl

theorem Memory.mem_erase {m : Memory} {a : Nat} {c : Host.Cell} (h : c ∈ m.erase a) : c ∈ m := by
  induction m with
  | nil => simp [Memory.erase] at h
  | cons x m ih =>
    obtain ⟨k, v⟩ := x
    simp only [Memory.erase] at h
    split at h
    · exact List.mem_cons_of_mem _ h
    · rcases List.mem_cons.mp h with h | h
      · exact h ▸ List.mem_cons_self
      · exact List.mem_cons_of_mem _ (ih h)

theorem Memory.rising_erase {m : Memory} {lo : Nat} (a : Nat) (hm : m.rising lo = true) : (m.erase a).rising lo = true := by
  induction m generalizing lo with
  | nil => rfl
  | cons x m ih =>
    obtain ⟨k, v⟩ := x
    simp only [Memory.rising, Bool.and_eq_true, decide_eq_true_eq] at hm
    simp only [Memory.erase]
    split
    · exact Memory.rising_mono (by omega) hm.2
    · simp only [Memory.rising, Bool.and_eq_true, decide_eq_true_eq]
      exact ⟨hm.1, ih hm.2⟩

theorem Memory.read_eq_none_of_rising {m : Memory} {lo a : Nat} (hm : m.rising lo = true) (h : a < lo) : m.read a = none := by
  induction m generalizing lo with
  | nil => rfl
  | cons x m ih =>
    obtain ⟨k, v⟩ := x
    simp only [Memory.rising, Bool.and_eq_true, decide_eq_true_eq] at hm
    have hk : k ≠ a := by omega
    simp only [Memory.read, hk, if_false]
    exact ih hm.2 (by omega)

theorem Memory.read_erase {m : Memory} {lo : Nat} (hm : m.rising lo = true) (a c : Nat) :
    (m.erase a).read c = if c = a then none else m.read c := by
  induction m generalizing lo with
  | nil => simp [Memory.erase, Memory.read]
  | cons x m ih =>
    obtain ⟨k, v⟩ := x
    simp only [Memory.rising, Bool.and_eq_true, decide_eq_true_eq] at hm
    simp only [Memory.erase]
    split
    · rename_i hk
      subst hk
      by_cases h : c = k
      · subst h; simp [Memory.read_eq_none_of_rising hm.2 (Nat.lt_succ_self _)]
      · simp [h, Memory.read, Ne.symm h]
    · rename_i hk
      simp only [Memory.read, ih hm.2]
      by_cases h : k = c
      · subst h; simp [hk]
      · simp [h]

/-- Reading an array of the reference radio after a write (R70). -/
theorem Memory.readZ_writeZ {n : Nat} {m : Memory} (hm : m.wfZ n = true) (a : Nat) (b : Byte) (c : Nat) :
    (m.writeZ a b).readZ c = if c = a then b else m.readZ c := by
  simp only [Memory.wfZ, Bool.and_eq_true] at hm
  simp only [Memory.writeZ, Memory.readZ]
  split
  · rename_i h
    rw [Memory.read_erase hm.1]; subst h
    split <;> simp
  · rw [Memory.read_write]; split <;> simp

/-- A write in range keeps the canonical form of an array of the reference radio. -/
theorem Memory.wfZ_writeZ {n : Nat} {m : Memory} (a : Nat) (b : Byte) (hm : m.wfZ n = true) (ha : a < n) :
    (m.writeZ a b).wfZ n = true := by
  simp only [Memory.wfZ, Bool.and_eq_true, List.all_eq_true, decide_eq_true_eq, bne_iff_ne, ne_eq] at hm ⊢
  simp only [Memory.writeZ]
  split
  · exact ⟨Memory.rising_erase a hm.1, fun c hc => hm.2 c (Memory.mem_erase hc)⟩
  · rename_i hb
    refine ⟨Memory.rising_write b hm.1 (Nat.zero_le _), fun c hc => ?_⟩
    rcases Memory.mem_write hc with rfl | h
    · exact ⟨ha, hb⟩
    · exact hm.2 c h

/-! ## Slices of `HBUF` -/

/-- A slice is the bytes read one by one. -/
theorem hbufSlice_eq_some {m : Memory} {n : Nat} : ∀ {i : BitVec 9} {bs : List Byte}, hbufSlice m i n = some bs ↔
    bs.length = n ∧ ∀ k, k < n → m.read (i + BitVec.ofNat 9 k).toNat = bs[k]? := by
  induction n with
  | zero => intro i bs; cases bs <;> simp [hbufSlice]
  | succ n ih =>
    intro i bs
    have step : ∀ k, i + BitVec.ofNat 9 (k + 1) = i + 1#9 + BitVec.ofNat 9 k := by
      intro k; rw [BitVec.add_assoc, ← BitVec.ofNat_add, Nat.add_comm 1 k]
    constructor
    · intro h
      simp only [hbufSlice] at h
      split at h
      · rename_i b bs' hb hbs
        obtain ⟨hl, hk⟩ := ih.mp hbs
        cases h
        refine ⟨by simp [hl], fun k hk' => ?_⟩
        cases k with
        | zero => simpa using hb
        | succ k => rw [step]; simpa using hk k (by omega)
      · exact absurd h (by simp)
    · rintro ⟨hl, hk⟩
      match bs, hl with
      | b :: bs, hl =>
        have h0 := hk 0 (by omega)
        have hs : hbufSlice m (i + 1#9) n = some bs :=
          ih.mpr ⟨by simpa using hl, fun k hk' => by have := hk (k + 1) (by omega); rw [step] at this; simpa using this⟩
        simp only [BitVec.add_zero, List.getElem?_cons_zero] at h0
        simp only [hbufSlice, h0, hs]

/-- A slice is missing exactly when one of its bytes is. -/
theorem hbufSlice_eq_none {m : Memory} {n : Nat} : ∀ {i : BitVec 9}, hbufSlice m i n = none ↔
    ∃ k, k < n ∧ m.read (i + BitVec.ofNat 9 k).toNat = none := by
  induction n with
  | zero => intro i; simp [hbufSlice]
  | succ n ih =>
    intro i
    have step : ∀ k, i + BitVec.ofNat 9 (k + 1) = i + 1#9 + BitVec.ofNat 9 k := by
      intro k; rw [BitVec.add_assoc, ← BitVec.ofNat_add, Nat.add_comm 1 k]
    simp only [hbufSlice]
    constructor
    · intro h
      split at h
      · exact absurd h (by simp)
      · rename_i hne
        by_cases h0 : m.read i.toNat = none
        · exact ⟨0, by omega, by simpa using h0⟩
        · obtain ⟨b, hb⟩ := Option.ne_none_iff_exists'.mp h0
          have : hbufSlice m (i + 1#9) n = none := by
            by_contra hc
            obtain ⟨bs, hbs⟩ := Option.ne_none_iff_exists'.mp hc
            exact hne b bs hb hbs
          obtain ⟨k, hk, hr⟩ := ih.mp this
          exact ⟨k + 1, by omega, by rw [step]; exact hr⟩
    · rintro ⟨k, hk, hr⟩
      split
      · rename_i b bs hb hbs
        exfalso
        cases k with
        | zero => simp [hb] at hr
        | succ k =>
          rw [step] at hr
          have := ih.mpr ⟨k, by omega, hr⟩
          simp [hbs] at this
      · rfl

end Sys2Proof.Machine
end

