-- ==== Sys2Proof/Laws/State.lean ====
section
/-! SUPPORT. One lemma per field per update of the state, each true by rfl. -/
namespace Sys2Proof.Machine

@[simp] theorem State.issue_par (s : State) (e : BusEvent) : (s.issue e).par = s.par := rfl
@[simp] theorem State.issue_seq (s : State) (e : BusEvent) : (s.issue e).seq = s.seq := rfl
@[simp] theorem State.issue_sessOpen (s : State) (e : BusEvent) : (s.issue e).sessOpen = s.sessOpen := rfl
@[simp] theorem State.issue_sessRem (s : State) (e : BusEvent) : (s.issue e).sessRem = s.sessRem := rfl
@[simp] theorem State.issue_sessCur (s : State) (e : BusEvent) : (s.issue e).sessCur = s.sessCur := rfl
@[simp] theorem State.issue_sessLqi (s : State) (e : BusEvent) : (s.issue e).sessLqi = s.sessLqi := rfl
@[simp] theorem State.issue_sessRssi (s : State) (e : BusEvent) : (s.issue e).sessRssi = s.sessRssi := rfl
@[simp] theorem State.issue_result (s : State) (e : BusEvent) : (s.issue e).result = s.result := rfl
@[simp] theorem State.issue_busy (s : State) (e : BusEvent) : (s.issue e).busy = s.busy := rfl
@[simp] theorem State.issue_hbuf (s : State) (e : BusEvent) : (s.issue e).hbuf = s.hbuf := rfl
@[simp] theorem State.issue_trace (s : State) (e : BusEvent) : (s.issue e).trace = s.trace ++ [e] := rfl
@[simp] theorem State.issue_radio (s : State) (e : BusEvent) : (s.issue e).radio = s.radio.observe s.par e := rfl
@[simp] theorem State.issue_host (s : State) (e : BusEvent) : (s.issue e).host = s.host := rfl
@[simp] theorem State.issue_hostData (s : State) (e : BusEvent) : (s.issue e).hostData = s.hostData := rfl
@[simp] theorem State.issue_freeCount (s : State) (e : BusEvent) : (s.issue e).freeCount = s.freeCount := rfl

@[simp] theorem State.memWrite_par (s : State) (l : BusAddr) (v : Byte) : (s.memWrite l v).par = s.par := rfl
@[simp] theorem State.memWrite_seq (s : State) (l : BusAddr) (v : Byte) : (s.memWrite l v).seq = s.seq := rfl
@[simp] theorem State.memWrite_sessOpen (s : State) (l : BusAddr) (v : Byte) : (s.memWrite l v).sessOpen = s.sessOpen := rfl
@[simp] theorem State.memWrite_sessRem (s : State) (l : BusAddr) (v : Byte) : (s.memWrite l v).sessRem = s.sessRem := rfl
@[simp] theorem State.memWrite_sessCur (s : State) (l : BusAddr) (v : Byte) : (s.memWrite l v).sessCur = s.sessCur := rfl
@[simp] theorem State.memWrite_sessLqi (s : State) (l : BusAddr) (v : Byte) : (s.memWrite l v).sessLqi = s.sessLqi := rfl
@[simp] theorem State.memWrite_sessRssi (s : State) (l : BusAddr) (v : Byte) : (s.memWrite l v).sessRssi = s.sessRssi := rfl
@[simp] theorem State.memWrite_result (s : State) (l : BusAddr) (v : Byte) : (s.memWrite l v).result = s.result := rfl
@[simp] theorem State.memWrite_busy (s : State) (l : BusAddr) (v : Byte) : (s.memWrite l v).busy = s.busy := rfl
@[simp] theorem State.memWrite_hbuf (s : State) (l : BusAddr) (v : Byte) : (s.memWrite l v).hbuf = s.hbuf := rfl
@[simp] theorem State.memWrite_trace (s : State) (l : BusAddr) (v : Byte) : (s.memWrite l v).trace = s.trace ++ [.wr l v] := rfl
@[simp] theorem State.memWrite_radio (s : State) (l : BusAddr) (v : Byte) : (s.memWrite l v).radio = s.radio.observe s.par (.wr l v) := rfl
@[simp] theorem State.memWrite_host (s : State) (l : BusAddr) (v : Byte) : (s.memWrite l v).host = s.host := rfl
@[simp] theorem State.memWrite_hostData (s : State) (l : BusAddr) (v : Byte) : (s.memWrite l v).hostData = s.hostData := rfl
@[simp] theorem State.memWrite_freeCount (s : State) (l : BusAddr) (v : Byte) : (s.memWrite l v).freeCount = s.freeCount := rfl

@[simp] theorem State.memRead_par (s : State) (l : BusAddr) : (s.memRead l).2.par = s.par := rfl
@[simp] theorem State.memRead_seq (s : State) (l : BusAddr) : (s.memRead l).2.seq = s.seq := rfl
@[simp] theorem State.memRead_sessOpen (s : State) (l : BusAddr) : (s.memRead l).2.sessOpen = s.sessOpen := rfl
@[simp] theorem State.memRead_sessRem (s : State) (l : BusAddr) : (s.memRead l).2.sessRem = s.sessRem := rfl
@[simp] theorem State.memRead_sessCur (s : State) (l : BusAddr) : (s.memRead l).2.sessCur = s.sessCur := rfl
@[simp] theorem State.memRead_sessLqi (s : State) (l : BusAddr) : (s.memRead l).2.sessLqi = s.sessLqi := rfl
@[simp] theorem State.memRead_sessRssi (s : State) (l : BusAddr) : (s.memRead l).2.sessRssi = s.sessRssi := rfl
@[simp] theorem State.memRead_result (s : State) (l : BusAddr) : (s.memRead l).2.result = s.result := rfl
@[simp] theorem State.memRead_busy (s : State) (l : BusAddr) : (s.memRead l).2.busy = s.busy := rfl
@[simp] theorem State.memRead_hbuf (s : State) (l : BusAddr) : (s.memRead l).2.hbuf = s.hbuf := rfl
@[simp] theorem State.memRead_trace (s : State) (l : BusAddr) : (s.memRead l).2.trace = s.trace ++ [.rd l (s.radioAnswer l)] := rfl
@[simp] theorem State.memRead_radio (s : State) (l : BusAddr) : (s.memRead l).2.radio = s.radio.observe s.par (.rd l (s.radioAnswer l)) := rfl
@[simp] theorem State.memRead_host (s : State) (l : BusAddr) : (s.memRead l).2.host = s.host := rfl
@[simp] theorem State.memRead_hostData (s : State) (l : BusAddr) : (s.memRead l).2.hostData = s.hostData := rfl
@[simp] theorem State.memRead_freeCount (s : State) (l : BusAddr) : (s.memRead l).2.freeCount = s.freeCount := rfl

@[simp] theorem State.hbufWrite_par (s : State) (i : BitVec 9) (v : Byte) : (s.hbufWrite i v).par = s.par := rfl
@[simp] theorem State.hbufWrite_seq (s : State) (i : BitVec 9) (v : Byte) : (s.hbufWrite i v).seq = s.seq := rfl
@[simp] theorem State.hbufWrite_sessOpen (s : State) (i : BitVec 9) (v : Byte) : (s.hbufWrite i v).sessOpen = s.sessOpen := rfl
@[simp] theorem State.hbufWrite_sessRem (s : State) (i : BitVec 9) (v : Byte) : (s.hbufWrite i v).sessRem = s.sessRem := rfl
@[simp] theorem State.hbufWrite_sessCur (s : State) (i : BitVec 9) (v : Byte) : (s.hbufWrite i v).sessCur = s.sessCur := rfl
@[simp] theorem State.hbufWrite_sessLqi (s : State) (i : BitVec 9) (v : Byte) : (s.hbufWrite i v).sessLqi = s.sessLqi := rfl
@[simp] theorem State.hbufWrite_sessRssi (s : State) (i : BitVec 9) (v : Byte) : (s.hbufWrite i v).sessRssi = s.sessRssi := rfl
@[simp] theorem State.hbufWrite_result (s : State) (i : BitVec 9) (v : Byte) : (s.hbufWrite i v).result = s.result := rfl
@[simp] theorem State.hbufWrite_busy (s : State) (i : BitVec 9) (v : Byte) : (s.hbufWrite i v).busy = s.busy := rfl
@[simp] theorem State.hbufWrite_hbuf (s : State) (i : BitVec 9) (v : Byte) : (s.hbufWrite i v).hbuf = s.hbuf.write i.toNat v := rfl
@[simp] theorem State.hbufWrite_trace (s : State) (i : BitVec 9) (v : Byte) : (s.hbufWrite i v).trace = s.trace := rfl
@[simp] theorem State.hbufWrite_radio (s : State) (i : BitVec 9) (v : Byte) : (s.hbufWrite i v).radio = s.radio := rfl
@[simp] theorem State.hbufWrite_host (s : State) (i : BitVec 9) (v : Byte) : (s.hbufWrite i v).host = s.host := rfl
@[simp] theorem State.hbufWrite_hostData (s : State) (i : BitVec 9) (v : Byte) : (s.hbufWrite i v).hostData = s.hostData := rfl
@[simp] theorem State.hbufWrite_freeCount (s : State) (i : BitVec 9) (v : Byte) : (s.hbufWrite i v).freeCount = s.freeCount := rfl

@[simp] theorem State.putResult_par (s : State) (st : Status) (b0 b1 b2 : Byte) : (s.putResult st b0 b1 b2).par = s.par := rfl
@[simp] theorem State.putResult_seq (s : State) (st : Status) (b0 b1 b2 : Byte) : (s.putResult st b0 b1 b2).seq = s.seq := rfl
@[simp] theorem State.putResult_sessOpen (s : State) (st : Status) (b0 b1 b2 : Byte) : (s.putResult st b0 b1 b2).sessOpen = s.sessOpen := rfl
@[simp] theorem State.putResult_sessRem (s : State) (st : Status) (b0 b1 b2 : Byte) : (s.putResult st b0 b1 b2).sessRem = s.sessRem := rfl
@[simp] theorem State.putResult_sessCur (s : State) (st : Status) (b0 b1 b2 : Byte) : (s.putResult st b0 b1 b2).sessCur = s.sessCur := rfl
@[simp] theorem State.putResult_sessLqi (s : State) (st : Status) (b0 b1 b2 : Byte) : (s.putResult st b0 b1 b2).sessLqi = s.sessLqi := rfl
@[simp] theorem State.putResult_sessRssi (s : State) (st : Status) (b0 b1 b2 : Byte) : (s.putResult st b0 b1 b2).sessRssi = s.sessRssi := rfl
@[simp] theorem State.putResult_result (s : State) (st : Status) (b0 b1 b2 : Byte) : (s.putResult st b0 b1 b2).result = resultWord st b0 b1 b2 := rfl
@[simp] theorem State.putResult_busy (s : State) (st : Status) (b0 b1 b2 : Byte) : (s.putResult st b0 b1 b2).busy = false := rfl
@[simp] theorem State.putResult_hbuf (s : State) (st : Status) (b0 b1 b2 : Byte) : (s.putResult st b0 b1 b2).hbuf = s.hbuf := rfl
@[simp] theorem State.putResult_trace (s : State) (st : Status) (b0 b1 b2 : Byte) : (s.putResult st b0 b1 b2).trace = s.trace := rfl
@[simp] theorem State.putResult_radio (s : State) (st : Status) (b0 b1 b2 : Byte) : (s.putResult st b0 b1 b2).radio = s.radio := rfl
@[simp] theorem State.putResult_host (s : State) (st : Status) (b0 b1 b2 : Byte) : (s.putResult st b0 b1 b2).host = s.host := rfl
@[simp] theorem State.putResult_hostData (s : State) (st : Status) (b0 b1 b2 : Byte) : (s.putResult st b0 b1 b2).hostData = s.hostData := rfl
@[simp] theorem State.putResult_freeCount (s : State) (st : Status) (b0 b1 b2 : Byte) : (s.putResult st b0 b1 b2).freeCount = s.freeCount := rfl

@[simp] theorem State.raise_par (s : State) (st : Status) (b : Byte) : (s.raise st b).par = s.par := rfl
@[simp] theorem State.raise_seq (s : State) (st : Status) (b : Byte) : (s.raise st b).seq = s.seq := rfl
@[simp] theorem State.raise_sessOpen (s : State) (st : Status) (b : Byte) : (s.raise st b).sessOpen = s.sessOpen := rfl
@[simp] theorem State.raise_sessRem (s : State) (st : Status) (b : Byte) : (s.raise st b).sessRem = s.sessRem := rfl
@[simp] theorem State.raise_sessCur (s : State) (st : Status) (b : Byte) : (s.raise st b).sessCur = s.sessCur := rfl
@[simp] theorem State.raise_sessLqi (s : State) (st : Status) (b : Byte) : (s.raise st b).sessLqi = s.sessLqi := rfl
@[simp] theorem State.raise_sessRssi (s : State) (st : Status) (b : Byte) : (s.raise st b).sessRssi = s.sessRssi := rfl
@[simp] theorem State.raise_result (s : State) (st : Status) (b : Byte) : (s.raise st b).result = resultWord st b 0#8 0#8 := rfl
@[simp] theorem State.raise_busy (s : State) (st : Status) (b : Byte) : (s.raise st b).busy = false := rfl
@[simp] theorem State.raise_hbuf (s : State) (st : Status) (b : Byte) : (s.raise st b).hbuf = s.hbuf := rfl
@[simp] theorem State.raise_trace (s : State) (st : Status) (b : Byte) : (s.raise st b).trace = s.trace := rfl
@[simp] theorem State.raise_radio (s : State) (st : Status) (b : Byte) : (s.raise st b).radio = s.radio := rfl
@[simp] theorem State.raise_host (s : State) (st : Status) (b : Byte) : (s.raise st b).host = s.host := rfl
@[simp] theorem State.raise_hostData (s : State) (st : Status) (b : Byte) : (s.raise st b).hostData = s.hostData := rfl
@[simp] theorem State.raise_freeCount (s : State) (st : Status) (b : Byte) : (s.raise st b).freeCount = s.freeCount := rfl

@[simp] theorem State.readCursor_par (s : State) : s.readCursor.2.par = s.par := rfl
@[simp] theorem State.readCursor_seq (s : State) : s.readCursor.2.seq = s.seq := rfl
@[simp] theorem State.readCursor_sessOpen (s : State) : s.readCursor.2.sessOpen = s.sessOpen := rfl
@[simp] theorem State.readCursor_sessRem (s : State) : s.readCursor.2.sessRem = s.sessRem := rfl
@[simp] theorem State.readCursor_sessCur (s : State) : s.readCursor.2.sessCur = s.sessCur + 1#11 := rfl
@[simp] theorem State.readCursor_sessLqi (s : State) : s.readCursor.2.sessLqi = s.sessLqi := rfl
@[simp] theorem State.readCursor_sessRssi (s : State) : s.readCursor.2.sessRssi = s.sessRssi := rfl
@[simp] theorem State.readCursor_result (s : State) : s.readCursor.2.result = s.result := rfl
@[simp] theorem State.readCursor_busy (s : State) : s.readCursor.2.busy = s.busy := rfl
@[simp] theorem State.readCursor_hbuf (s : State) : s.readCursor.2.hbuf = s.hbuf := rfl
@[simp] theorem State.readCursor_trace (s : State) : s.readCursor.2.trace = s.trace ++ [.rd (.long s.sessCur) (s.radioAnswer (.long s.sessCur))] := rfl
@[simp] theorem State.readCursor_radio (s : State) : s.readCursor.2.radio = s.radio.observe s.par (.rd (.long s.sessCur) (s.radioAnswer (.long s.sessCur))) := rfl
@[simp] theorem State.readCursor_host (s : State) : s.readCursor.2.host = s.host := rfl
@[simp] theorem State.readCursor_hostData (s : State) : s.readCursor.2.hostData = s.hostData := rfl
@[simp] theorem State.readCursor_freeCount (s : State) : s.readCursor.2.freeCount = s.freeCount := rfl

@[simp] theorem State.memRead_fst (s : State) (l : BusAddr) : (s.memRead l).1 = s.radioAnswer l := rfl
@[simp] theorem State.readCursor_fst (s : State) : s.readCursor.1 = s.radioAnswer (.long s.sessCur) := rfl

end Sys2Proof.Machine
end

