-- ==== Sys2Proof/Laws/Ops.lean ====
section
/-! SUPPORT. What each shared operation does, said once: every one of them issues a list of transactions the radio answered,
and writes the fields its rule names. -/
namespace Sys2Proof.Machine

/-! ## Issuing transactions -/

@[simp] theorem State.issueAll_nil (s : State) : s.issueAll [] = s := rfl

@[simp] theorem State.issueAll_cons (s : State) (e : BusEvent) (es : List BusEvent) :
    s.issueAll (e :: es) = (s.issue e).issueAll es := rfl

theorem State.issueAll_append (s : State) (es es' : List BusEvent) :
    s.issueAll (es ++ es') = (s.issueAll es).issueAll es' := List.foldl_append

/-- Issuing transactions changes the trace and the radio, and nothing else (R58). -/
theorem State.issueAll_eq (s : State) (es : List BusEvent) :
    s.issueAll es = { s with trace := s.trace ++ es, radio := es.foldl (fun r e => r.observe s.par e) s.radio } := by
  induction es generalizing s with
  | nil => simp
  | cons e es ih => rw [State.issueAll_cons, ih]; simp [State.issue]

@[simp] theorem State.issueAll_par (s : State) (es : List BusEvent) : (s.issueAll es).par = s.par := by rw [issueAll_eq]
@[simp] theorem State.issueAll_seq (s : State) (es : List BusEvent) : (s.issueAll es).seq = s.seq := by rw [issueAll_eq]
@[simp] theorem State.issueAll_sessOpen (s : State) (es : List BusEvent) : (s.issueAll es).sessOpen = s.sessOpen := by
  rw [issueAll_eq]
@[simp] theorem State.issueAll_sessRem (s : State) (es : List BusEvent) : (s.issueAll es).sessRem = s.sessRem := by
  rw [issueAll_eq]
@[simp] theorem State.issueAll_sessCur (s : State) (es : List BusEvent) : (s.issueAll es).sessCur = s.sessCur := by
  rw [issueAll_eq]
@[simp] theorem State.issueAll_sessLqi (s : State) (es : List BusEvent) : (s.issueAll es).sessLqi = s.sessLqi := by
  rw [issueAll_eq]
@[simp] theorem State.issueAll_sessRssi (s : State) (es : List BusEvent) : (s.issueAll es).sessRssi = s.sessRssi := by
  rw [issueAll_eq]
@[simp] theorem State.issueAll_result (s : State) (es : List BusEvent) : (s.issueAll es).result = s.result := by
  rw [issueAll_eq]
@[simp] theorem State.issueAll_busy (s : State) (es : List BusEvent) : (s.issueAll es).busy = s.busy := by rw [issueAll_eq]
@[simp] theorem State.issueAll_hbuf (s : State) (es : List BusEvent) : (s.issueAll es).hbuf = s.hbuf := by rw [issueAll_eq]
@[simp] theorem State.issueAll_trace (s : State) (es : List BusEvent) : (s.issueAll es).trace = s.trace ++ es := by
  rw [issueAll_eq]
@[simp] theorem State.issueAll_host (s : State) (es : List BusEvent) : (s.issueAll es).host = s.host := by rw [issueAll_eq]
@[simp] theorem State.issueAll_hostData (s : State) (es : List BusEvent) : (s.issueAll es).hostData = s.hostData := by
  rw [issueAll_eq]
@[simp] theorem State.issueAll_freeCount (s : State) (es : List BusEvent) : (s.issueAll es).freeCount = s.freeCount := by
  rw [issueAll_eq]

/-- What the radio answers, and the radio after transactions, depend on the trace, the radio and the parameters only. -/
theorem State.radioAnswer_congr {s t : State} (l : BusAddr) (ht : s.trace = t.trace) (hr : s.radio = t.radio) :
    s.radioAnswer l = t.radioAnswer l := by simp [State.radioAnswer, ht, hr]

theorem State.issueAll_radio_congr {s t : State} (es : List BusEvent) (hp : s.par = t.par) (hr : s.radio = t.radio) :
    (s.issueAll es).radio = (t.issueAll es).radio := by simp [State.issueAll_eq, hp, hr]

/-- Transactions do not look at any field but the trace, the radio and the parameters: every other field may be set before
them or after them. -/
theorem State.issueAll_update (s : State) (es : List BusEvent) (seq : Byte) (sessOpen : Bool) (sessRem : Byte)
    (sessCur : BitVec 11) (sessLqi sessRssi : Byte) (result : Word) (busy : Bool) (hbuf : Memory) (host : List HostAct)
    (hostData : Word) (freeCount : Nat) :
    State.issueAll { s with seq, sessOpen, sessRem, sessCur, sessLqi, sessRssi, result, busy, hbuf, host, hostData, freeCount } es =
      { s.issueAll es with seq, sessOpen, sessRem, sessCur, sessLqi, sessRssi, result, busy, hbuf, host, hostData, freeCount } := by
  simp [State.issueAll_eq]

theorem State.radioAnswer_update (s : State) (l : BusAddr) (seq : Byte) (sessOpen : Bool) (sessRem : Byte)
    (sessCur : BitVec 11) (sessLqi sessRssi : Byte) (result : Word) (busy : Bool) (hbuf : Memory) (host : List HostAct)
    (hostData : Word) (freeCount : Nat) :
    State.radioAnswer { s with seq, sessOpen, sessRem, sessCur, sessLqi, sessRssi, result, busy, hbuf, host, hostData, freeCount } l =
      s.radioAnswer l := rfl

theorem State.Answered.congr {s t : State} {es : List BusEvent} (hp : s.par = t.par) (ht : s.trace = t.trace)
    (hr : s.radio = t.radio) (h : s.Answered es) : t.Answered es := by
  induction es generalizing s t with
  | nil => trivial
  | cons e es ih =>
    have next : ∀ e, (t.issue e).par = (s.issue e).par ∧ (t.issue e).trace = (s.issue e).trace ∧
        (t.issue e).radio = (s.issue e).radio := fun e => by simp [State.issue, hp, ht, hr]
    cases e with
    | rd l v =>
      obtain ⟨h1, h2⟩ := h
      obtain ⟨a, b, c⟩ := next (.rd l v)
      exact ⟨h1.trans (State.radioAnswer_congr l ht hr), ih a.symm b.symm c.symm h2⟩
    | wr l v =>
      obtain ⟨a, b, c⟩ := next (.wr l v)
      exact ih (s := s.issue (.wr l v)) a.symm b.symm c.symm h

theorem State.Answered_append {s : State} {es es' : List BusEvent} :
    s.Answered (es ++ es') ↔ s.Answered es ∧ (s.issueAll es).Answered es' := by
  induction es generalizing s with
  | nil => simp [State.Answered]
  | cons e es ih => cases e <;> simp [State.Answered, ih, and_assoc]

@[simp] theorem State.Answered_nil (s : State) : s.Answered [] := trivial

@[simp] theorem State.Answered_rd {s : State} {l : BusAddr} {v : Byte} {es : List BusEvent} :
    s.Answered (.rd l v :: es) ↔ v = s.radioAnswer l ∧ (s.issue (.rd l v)).Answered es := Iff.rfl

@[simp] theorem State.Answered_wr {s : State} {l : BusAddr} {v : Byte} {es : List BusEvent} :
    s.Answered (.wr l v :: es) ↔ (s.issue (.wr l v)).Answered es := Iff.rfl

/-! ## Bit and buffer primitives -/

theorem State.memRead_eq (s : State) (l : BusAddr) :
    s.memRead l = (s.radioAnswer l, s.issueAll [.rd l (s.radioAnswer l)]) := rfl

theorem State.memWrite_eq (s : State) (l : BusAddr) (v : Byte) : s.memWrite l v = s.issueAll [.wr l v] := rfl

/-- `SetBit` (R120): a read and a write. -/
theorem State.setBit_eq (s : State) (a : BitVec 6) (b : Fin 8) :
    s.setBit a b = s.issueAll (setBitEvents a b (s.radioAnswer (.short a))) := rfl

/-- `ClearBit` (R121): a read and a write. -/
theorem State.clearBit_eq (s : State) (a : BitVec 6) (b : Fin 8) :
    s.clearBit a b = s.issueAll (clearBitEvents a b (s.radioAnswer (.short a))) := rfl

theorem State.Answered_setBitEvents (s : State) (a : BitVec 6) (b : Fin 8) :
    s.Answered (setBitEvents a b (s.radioAnswer (.short a))) := ⟨rfl, trivial⟩

theorem State.Answered_clearBitEvents (s : State) (a : BitVec 6) (b : Fin 8) :
    s.Answered (clearBitEvents a b (s.radioAnswer (.short a))) := ⟨rfl, trivial⟩

/-- `RxFlush` then `RxEnable` (R124, R123), as transactions the radio answered. -/
theorem State.rxFlush_rxEnable (s : State) : ∃ f e, s.Answered (flushEnableEvents s.par f e) ∧
    s.rxFlush.rxEnable = s.issueAll (flushEnableEvents s.par f e) := by
  refine ⟨s.radioAnswer (.short s.par.aRxflush), s.rxFlush.radioAnswer (.short s.par.aBbreg1), ?_, ?_⟩
  · exact State.Answered_append.mpr ⟨State.Answered_setBitEvents _ _ _, State.Answered_clearBitEvents s.rxFlush _ _⟩
  · rw [flushEnableEvents, State.issueAll_append]; rfl

/-- `WriteBuf` (R127) issues the writes of its bytes and nothing else. -/
theorem State.writeBuf_eq (s : State) (a : BitVec 11) (bs : List Byte) :
    s.writeBuf a bs = s.issueAll (writeEvents a bs) := by
  induction bs generalizing s a with
  | nil => rfl
  | cons v vs ih => exact ih _ _

theorem State.Answered_writeEvents (s : State) (a : BitVec 11) (bs : List Byte) : s.Answered (writeEvents a bs) := by
  induction bs generalizing s a with
  | nil => trivial
  | cons v vs ih => exact ih _ _

@[simp] theorem writeEvents_length (a : BitVec 11) (bs : List Byte) : (writeEvents a bs).length = bs.length := by
  induction bs generalizing a with
  | nil => rfl
  | cons v vs ih => simp [writeEvents, ih]

@[simp] theorem readEvents_length (a : BitVec 11) (bs : List Byte) : (readEvents a bs).length = bs.length := by
  induction bs generalizing a with
  | nil => rfl
  | cons v vs ih => simp [readEvents, ih]

theorem readEvents_append (a : BitVec 11) (bs bs' : List Byte) :
    readEvents a (bs ++ bs') = readEvents a bs ++ readEvents (a + BitVec.ofNat 11 bs.length) bs' := by
  induction bs generalizing a with
  | nil => simp [readEvents]
  | cons v vs ih =>
    have h : a + 1#11 + BitVec.ofNat 11 vs.length = a + BitVec.ofNat 11 (vs.length + 1) := by
      rw [BitVec.add_assoc, ← BitVec.ofNat_add, Nat.add_comm 1]
    simp [readEvents, ih, h]

/-! ## Bytes laid into `HBUF` -/

theorem overlaid_nil (m : Memory) (d j : BitVec 9) : overlaid m d [] j = m.read j.toNat := by simp [overlaid]

theorem overlaid_congr {m m' : Memory} (h : ∀ j : BitVec 9, m.read j.toNat = m'.read j.toNat) (d : BitVec 9) (bs : List Byte)
    (j : BitVec 9) : overlaid m d bs j = overlaid m' d bs j := by simp [overlaid, h]

/-- Writing one byte and then the rest after it lays down the whole run (at most 512 bytes). -/
theorem overlaid_cons {m : Memory} {d j : BitVec 9} {v : Byte} {vs : List Byte} (h : vs.length < 512) :
    overlaid (m.write d.toNat v) (d + 1#9) vs j = overlaid m d (v :: vs) j := by
  unfold overlaid
  by_cases hj : j = d
  · subst hj
    have h0 : (j - j : BitVec 9) = 0#9 := BitVec.sub_self j
    have h1 : (j - (j + 1#9)).toNat = 511 := by
      rw [show j - (j + 1#9) = 511#9 by bv_omega]; rfl
    rw [h0, h1]
    have : ¬ 511 < vs.length := by omega
    simp [this]
  · have hne : j.toNat ≠ d.toNat := fun hc => hj (BitVec.eq_of_toNat_eq hc)
    have hs : (j - d).toNat = (j - (d + 1#9)).toNat + 1 := by bv_omega
    rw [hs, Memory.read_write_other _ _ hne]
    simp

/-! ## How a command ends -/

@[simp] theorem resultWord_status (st : Status) (b0 b1 b2 : Byte) :
    (resultWord st b0 b1 b2).extractLsb' 0 4 = statusCode st := by
  simp (disch := decide) only [resultWord, BitVec.extractLsb'_append_eq_of_add_le]; simp

@[simp] theorem resultWord_reserved (st : Status) (b0 b1 b2 : Byte) : (resultWord st b0 b1 b2).extractLsb' 4 4 = 0#4 := by
  simp (disch := decide) only [resultWord, BitVec.extractLsb'_append_eq_of_add_le, BitVec.extractLsb'_append_eq_of_le]; simp

@[simp] theorem resultWord_b0 (st : Status) (b0 b1 b2 : Byte) : (resultWord st b0 b1 b2).extractLsb' 8 8 = b0 := by
  simp (disch := decide) only [resultWord, BitVec.extractLsb'_append_eq_of_add_le, BitVec.extractLsb'_append_eq_of_le]; simp

@[simp] theorem resultWord_b1 (st : Status) (b0 b1 b2 : Byte) : (resultWord st b0 b1 b2).extractLsb' 16 8 = b1 := by
  simp (disch := decide) only [resultWord, BitVec.extractLsb'_append_eq_of_add_le, BitVec.extractLsb'_append_eq_of_le]; simp

@[simp] theorem resultWord_b2 (st : Status) (b0 b1 b2 : Byte) : (resultWord st b0 b1 b2).extractLsb' 24 8 = b2 := by
  simp (disch := decide) only [resultWord, BitVec.extractLsb'_append_eq_of_le]; simp

theorem statusCode_lt (st : Status) : (statusCode st).toNat < 8 := by cases st <;> decide

end Sys2Proof.Machine
end

