-- ==== Sys2Proof/Laws/Receive.lean ====
section
/-! SUPPORT. What the copy loops and `Finish` do, said once: the transactions they issue, all answered by the radio, the bytes
they lay into `HBUF`, and the fields they write. -/
namespace Sys2Proof.Machine

/-- The copy loop of `Drain` (R161): `n` reads from the cursor on, answered by the radio, laid into `HBUF` from `p` on, the
cursor moved by `n`, nothing else. -/
theorem State.drainBytes_spec (n : Nat) (hn : n ≤ 512) : ∀ (s : State) (p : BitVec 9), ∃ bs m,
    bs.length = n ∧ s.Answered (readEvents s.sessCur bs) ∧
    s.drainBytes p n =
      { s.issueAll (readEvents s.sessCur bs) with hbuf := m, sessCur := s.sessCur + BitVec.ofNat 11 n } ∧
    ∀ j, m.read j.toNat = overlaid s.hbuf p bs j := by
  induction n with
  | zero => intro s p; exact ⟨[], s.hbuf, rfl, trivial, by simp [State.drainBytes, readEvents], fun j => (overlaid_nil _ _ _).symm⟩
  | succ n ih =>
    intro s p
    let v := s.radioAnswer (.long s.sessCur)
    let s1 := s.readCursor.2.hbufWrite p v
    obtain ⟨bs, m, hl, ha, hs, hm⟩ := ih (by omega) s1 (p + 1#9)
    have h1 : s1 = { s.issue (.rd (.long s.sessCur) v) with
        hbuf := s.hbuf.write p.toNat v, sessCur := s.sessCur + 1#11 } := rfl
    have hc : s1.sessCur = s.sessCur + 1#11 := rfl
    refine ⟨v :: bs, m, by simp [hl], ⟨rfl, State.Answered.congr (s := s1) rfl rfl rfl ha⟩, ?_, fun j => ?_⟩
    · have e : s.sessCur + 1#11 + BitVec.ofNat 11 n = s.sessCur + BitVec.ofNat 11 (n + 1) := by
        rw [BitVec.add_assoc, ← BitVec.ofNat_add, Nat.add_comm 1]
      show s1.drainBytes (p + 1#9) n = _
      rw [hs, hc, h1, State.issueAll_update, e]
      simp [readEvents]
    · rw [hm j]; exact overlaid_cons (by omega)

/-- `ReadBuf` (R128): `n` reads from `a` on, answered by the radio, laid into `HBUF` from `d` on. -/
theorem State.readBuf_spec (n : Nat) (hn : n ≤ 512) : ∀ (s : State) (a : BitVec 11) (d : BitVec 9), ∃ bs m,
    bs.length = n ∧ s.Answered (readEvents a bs) ∧
    s.readBuf a d n = { s.issueAll (readEvents a bs) with hbuf := m } ∧
    ∀ j, m.read j.toNat = overlaid s.hbuf d bs j := by
  induction n with
  | zero => intro s a d; exact ⟨[], s.hbuf, rfl, trivial, by simp [State.readBuf, readEvents], fun j => (overlaid_nil _ _ _).symm⟩
  | succ n ih =>
    intro s a d
    let v := s.radioAnswer (.long a)
    let s1 := (s.memRead (.long a)).2.hbufWrite d v
    obtain ⟨bs, m, hl, ha, hs, hm⟩ := ih (by omega) s1 (a + 1#11) (d + 1#9)
    have h1 : s1 = { s.issue (.rd (.long a) v) with hbuf := s.hbuf.write d.toNat v } := rfl
    refine ⟨v :: bs, m, by simp [hl], ⟨rfl, State.Answered.congr (s := s1) rfl rfl rfl ha⟩, ?_, fun j => ?_⟩
    · show s1.readBuf (a + 1#11) (d + 1#9) n = _
      rw [hs, h1, State.issueAll_update]
      simp [readEvents]
    · rw [hm j]; exact overlaid_cons (by omega)

/-- `Finish` (R162): the two trailer reads, the flush and the enable, and the fields it writes. -/
theorem State.finish_spec (s : State) : ∃ lqi rssi f e,
    let es := readEvents s.sessCur [lqi, rssi] ++ flushEnableEvents s.par f e
    s.Answered es ∧
    s.finish = { s.issueAll es with
      sessCur := s.sessCur + 2#11
      sessLqi := lqi
      sessRssi := rssi
      sessOpen := false
      result := resultWord .ok 0#8 lqi rssi
      busy := false } := by
  let lqi := s.radioAnswer (.long s.sessCur)
  let t := s.readCursor.2.readCursor.2
  let rssi := s.readCursor.2.radioAnswer (.long (s.sessCur + 1#11))
  obtain ⟨f, e, ha, he⟩ := State.rxFlush_rxEnable ({ t with sessLqi := lqi, sessRssi := rssi } : State)
  refine ⟨lqi, rssi, f, e, ⟨rfl, rfl, State.Answered.congr (s := { t with sessLqi := lqi, sessRssi := rssi }) rfl rfl rfl ha⟩, ?_⟩
  have e2 : s.sessCur + 1#11 + 1#11 = s.sessCur + 2#11 := by rw [BitVec.add_assoc]; rfl
  have : s.finish = { State.rxEnable (State.rxFlush ({ t with sessLqi := lqi, sessRssi := rssi } : State)) with
      sessOpen := false }.putResult .ok 0#8 lqi rssi := rfl
  rw [this, he]
  have ht : t = { s.issueAll (readEvents s.sessCur [lqi, rssi]) with sessCur := s.sessCur + 2#11 } := by
    rw [← e2]; rfl
  rw [ht]
  simp [State.issueAll_eq, State.putResult]

/-- Removing the bytes copied from a byte count (R161). -/
theorem sub_min_toNat (a : Byte) (c : Nat) : (a - BitVec.ofNat 8 (min a.toNat c)).toNat = a.toNat - c := by
  have := a.isLt
  rw [BitVec.toNat_sub, BitVec.toNat_ofNat]
  omega

/-- `Drain` (R161): the reads from the cursor on, laid into `HBUF`; then either bytes remain, or `Finish` runs (R162). -/
theorem State.drain_spec (s : State) (p : BitVec 9) (c : Nat) : ∃ data m,
    let n := min s.sessRem.toNat c
    let start := readEvents s.sessCur data
    data.length = n ∧ s.Answered start ∧ (∀ j, m.read j.toNat = overlaid s.hbuf p data j) ∧
    (c < s.sessRem.toNat → s.drain p c = { s.issueAll start with
      hbuf := m
      sessRem := s.sessRem - BitVec.ofNat 8 n
      sessCur := s.sessCur + BitVec.ofNat 11 n
      result := resultWord .ok (s.sessRem - BitVec.ofNat 8 n) 0#8 0#8
      busy := false }) ∧
    (s.sessRem.toNat ≤ c → ∃ lqi rssi f e,
      let cur := s.sessCur + BitVec.ofNat 11 n
      let es := start ++ readEvents cur [lqi, rssi] ++ flushEnableEvents s.par f e
      s.Answered es ∧
      s.drain p c = { s.issueAll es with
        hbuf := m
        sessOpen := false
        sessRem := 0#8
        sessCur := cur + 2#11
        sessLqi := lqi
        sessRssi := rssi
        result := resultWord .ok 0#8 lqi rssi
        busy := false }) := by
  let n := min s.sessRem.toNat c
  have hlt := sub_min_toNat s.sessRem c
  obtain ⟨data, m, hl, ha, hd, hm⟩ := State.drainBytes_spec n (by omega) s p
  refine ⟨data, m, hl, ha, hm, ?_, ?_⟩
  · intro hc
    have hrem : ¬ s.sessRem - BitVec.ofNat 8 n = 0#8 := by
      intro h
      rw [h] at hlt
      simp only [BitVec.toNat_ofNat] at hlt
      omega
    show (if s.sessRem - BitVec.ofNat 8 n = 0#8 then _ else _) = _
    rw [if_neg hrem]
    show State.putResult { s.drainBytes p n with sessRem := s.sessRem - BitVec.ofNat 8 n } _ _ _ _ = _
    simp only [State.putResult, hd]
    rfl
  · intro hc
    have hrem : s.sessRem - BitVec.ofNat 8 n = 0#8 := BitVec.eq_of_toNat_eq (hlt.trans (by simp [hc]))
    let s1 : State := { s.drainBytes p n with sessRem := s.sessRem - BitVec.ofNat 8 n }
    have hs1 : s1 = { s.issueAll (readEvents s.sessCur data) with
        hbuf := m
        sessRem := 0#8
        sessCur := s.sessCur + BitVec.ofNat 11 n } := by
      simp only [s1, hd, hrem]
    obtain ⟨lqi, rssi, f, e, hfa, hf⟩ := State.finish_spec s1
    have hcur : s1.sessCur = s.sessCur + BitVec.ofNat 11 n := by rw [hs1]
    have hpar : s1.par = s.par := by rw [hs1]; simp
    rw [hcur, hpar] at hfa hf
    refine ⟨lqi, rssi, f, e, ?_, ?_⟩
    · rw [List.append_assoc]
      refine State.Answered_append.mpr ⟨ha, State.Answered.congr (s := s1) ?_ ?_ ?_ hfa⟩ <;> rw [hs1]
    · have : s.drain p c = s1.finish := by
        show (if s.sessRem - BitVec.ofNat 8 n = 0#8 then _ else _) = _
        rw [if_pos hrem]
      rw [this, hf, hs1, State.issueAll_update, List.append_assoc, State.issueAll_append s (readEvents s.sessCur data)]
      simp
      exact ⟨rfl, rfl, rfl⟩

/-! ## What a command leaves alone -/

@[simp] theorem State.drainBytes_par (s : State) (p : BitVec 9) (n : Nat) : (s.drainBytes p n).par = s.par := by
  induction n generalizing s p with
  | zero => rfl
  | succ n ih => simp [State.drainBytes, ih]

@[simp] theorem State.drainBytes_sessRem (s : State) (p : BitVec 9) (n : Nat) : (s.drainBytes p n).sessRem = s.sessRem := by
  induction n generalizing s p with
  | zero => rfl
  | succ n ih => simp [State.drainBytes, ih]

@[simp] theorem State.drainBytes_sessOpen (s : State) (p : BitVec 9) (n : Nat) :
    (s.drainBytes p n).sessOpen = s.sessOpen := by
  induction n generalizing s p with
  | zero => rfl
  | succ n ih => simp [State.drainBytes, ih]

/-- Two copy loops one after the other are one. -/
theorem State.drainBytes_add (s : State) (p : BitVec 9) (n k : Nat) :
    s.drainBytes p (n + k) = (s.drainBytes p n).drainBytes (p + BitVec.ofNat 9 n) k := by
  induction n generalizing s p with
  | zero => simp [State.drainBytes]
  | succ n ih =>
    have h : p + 1#9 + BitVec.ofNat 9 n = p + BitVec.ofNat 9 (n + 1) := by
      rw [BitVec.add_assoc, ← BitVec.ofNat_add, Nat.add_comm 1]
    rw [Nat.succ_add]
    simp only [State.drainBytes, ih, h]

/-- The session after `Drain`: the bytes that remain, and open exactly when some do (R161, R162). -/
theorem State.drain_session (s : State) (p : BitVec 9) (c : Nat) (ho : s.sessOpen = true) :
    (s.drain p c).sessRem.toNat = s.sessRem.toNat - c ∧ ((s.drain p c).sessOpen = true ↔ c < s.sessRem.toNat) := by
  obtain ⟨_, _, -, -, -, h1, h2⟩ := s.drain_spec p c
  rcases Nat.lt_or_ge c s.sessRem.toNat with hc | hc
  · rw [h1 hc]
    exact ⟨sub_min_toNat _ _, by simpa [ho] using hc⟩
  · obtain ⟨_, _, _, _, -, h⟩ := h2 hc
    rw [h]
    exact ⟨by simp only [BitVec.toNat_ofNat]; omega, by simpa using hc⟩

@[simp] theorem State.readBuf_sessOpen (s : State) (a : BitVec 11) (d : BitVec 9) (n : Nat) :
    (s.readBuf a d n).sessOpen = s.sessOpen := by
  induction n generalizing s a d with
  | zero => rfl
  | succ n ih => simp [State.readBuf, ih]

@[simp] theorem State.readBuf_sessRem (s : State) (a : BitVec 11) (d : BitVec 9) (n : Nat) :
    (s.readBuf a d n).sessRem = s.sessRem := by
  induction n generalizing s a d with
  | zero => rfl
  | succ n ih => simp [State.readBuf, ih]

@[simp] theorem State.readBuf_sessCur (s : State) (a : BitVec 11) (d : BitVec 9) (n : Nat) :
    (s.readBuf a d n).sessCur = s.sessCur := by
  induction n generalizing s a d with
  | zero => rfl
  | succ n ih => simp [State.readBuf, ih]

@[simp] theorem State.readBuf_seq (s : State) (a : BitVec 11) (d : BitVec 9) (n : Nat) : (s.readBuf a d n).seq = s.seq := by
  induction n generalizing s a d with
  | zero => rfl
  | succ n ih => simp [State.readBuf, ih]

/-- Whole reception leaves the session and the sequence number alone (R163). -/
theorem State.receiveWhole_frame (s : State) (dst cap : BitVec 9) :
    (s.receiveWhole dst cap).sessOpen = s.sessOpen ∧ (s.receiveWhole dst cap).sessRem = s.sessRem ∧
      (s.receiveWhole dst cap).sessCur = s.sessCur ∧ (s.receiveWhole dst cap).seq = s.seq := by
  unfold State.receiveWhole
  dsimp only
  split <;> simp [State.rxEnable, State.rxFlush, State.rxDisable, State.setBit, State.clearBit]

end Sys2Proof.Machine
end

