-- ==== Sys2Proof/Laws/Effect.lean ====
section
/-! SUPPORT. Everything a command can do, said once: an `Effect` is a list of transactions, all answered by the radio and all
meeting a predicate, with the parameters, the host's side and the canonical form of `HBUF` kept. Effects compose; each shared
operation is one; so is every command that answers a next state. -/
namespace Sys2Proof.Machine

/-- From `s` to `t`: transactions that meet `P`, answered by the radio, and nothing of the host's side. -/
structure Effect (P : BusEvent → Prop) (s t : State) : Prop where
  events : ∃ es, s.Answered es ∧ t.trace = s.trace ++ es ∧ t.radio = (s.issueAll es).radio ∧ ∀ e ∈ es, P e
  par : t.par = s.par
  host : t.host = s.host
  hostData : t.hostData = s.hostData
  freeCount : t.freeCount = s.freeCount
  wf : s.hbuf.wf = true → t.hbuf.wf = true

namespace Effect
variable {P : BusEvent → Prop} {s t u : State}

theorem refl (P : BusEvent → Prop) (s : State) : Effect P s s :=
  ⟨⟨[], trivial, by simp, rfl, by simp⟩, rfl, rfl, rfl, rfl, id⟩

theorem trans (h : Effect P s t) (h' : Effect P t u) : Effect P s u := by
  obtain ⟨es, ha, ht, hr, hp⟩ := h.events
  obtain ⟨es', ha', ht', hr', hp'⟩ := h'.events
  have hpar : (s.issueAll es).par = t.par := by rw [State.issueAll_par, h.par]
  have htr : (s.issueAll es).trace = t.trace := by rw [State.issueAll_trace, ht]
  refine ⟨⟨es ++ es', ?_, ?_, ?_, ?_⟩, h'.par.trans h.par, h'.host.trans h.host, h'.hostData.trans h.hostData,
    h'.freeCount.trans h.freeCount, fun hw => h'.wf (h.wf hw)⟩
  · exact State.Answered_append.mpr ⟨ha, State.Answered.congr hpar.symm htr.symm hr ha'⟩
  · rw [ht', ht, List.append_assoc]
  · rw [State.issueAll_append, hr']
    exact State.issueAll_radio_congr _ hpar.symm hr
  · intro e he
    rcases List.mem_append.mp he with he | he
    · exact hp e he
    · exact hp' e he

/-- Setting fields that are neither the trace, the radio, the parameters, the host's nor `HBUF`. -/
theorem update (h : Effect P s t) (ht : u.trace = t.trace) (hr : u.radio = t.radio) (hp : u.par = t.par) (hh : u.host = t.host)
    (hd : u.hostData = t.hostData) (hf : u.freeCount = t.freeCount) (hb : u.hbuf = t.hbuf) : Effect P s u := by
  obtain ⟨es, ha, ht', hr', hp'⟩ := h.events
  exact ⟨⟨es, ha, ht.trans ht', hr.trans hr', hp'⟩, hp.trans h.par, hh.trans h.host, hd.trans h.hostData, hf.trans h.freeCount,
    fun hw => hb ▸ h.wf hw⟩

theorem memRead (s : State) (l : BusAddr) (h : ∀ v, P (.rd l v)) : Effect P s (s.memRead l).2 :=
  ⟨⟨[.rd l (s.radioAnswer l)], ⟨rfl, trivial⟩, rfl, rfl, by simp [h]⟩, rfl, rfl, rfl, rfl, id⟩

theorem memWrite (s : State) (l : BusAddr) (v : Byte) (h : P (.wr l v)) : Effect P s (s.memWrite l v) :=
  ⟨⟨[.wr l v], trivial, rfl, rfl, by simp [h]⟩, rfl, rfl, rfl, rfl, id⟩

theorem setBit (s : State) (a : BitVec 6) (b : Fin 8) (hr : ∀ v, P (.rd (.short a) v)) (hw : ∀ v, P (.wr (.short a) v)) :
    Effect P s (s.setBit a b) := (memRead s _ hr).trans (memWrite _ _ _ (hw _))

theorem clearBit (s : State) (a : BitVec 6) (b : Fin 8) (hr : ∀ v, P (.rd (.short a) v)) (hw : ∀ v, P (.wr (.short a) v)) :
    Effect P s (s.clearBit a b) := (memRead s _ hr).trans (memWrite _ _ _ (hw _))

theorem rxFlush_rxEnable (h : Effect P s t) (hf : ∀ v, P (.rd (.short s.par.aRxflush) v) ∧ P (.wr (.short s.par.aRxflush) v))
    (he : ∀ v, P (.rd (.short s.par.aBbreg1) v) ∧ P (.wr (.short s.par.aBbreg1) v)) : Effect P s t.rxFlush.rxEnable := by
  have h1 : Effect P t t.rxFlush :=
    setBit _ _ _ (fun v => h.par ▸ (hf v).1) (fun v => h.par ▸ (hf v).2)
  have h2 : Effect P t.rxFlush t.rxFlush.rxEnable :=
    clearBit _ _ _ (fun v => by rw [h1.par, h.par]; exact (he v).1) (fun v => by rw [h1.par, h.par]; exact (he v).2)
  exact h.trans (h1.trans h2)

theorem hbufWrite (s : State) (i : BitVec 9) (v : Byte) : Effect P s (s.hbufWrite i v) :=
  ⟨⟨[], trivial, by simp, rfl, by simp⟩, rfl, rfl, rfl, rfl, fun h => Memory.wf_write _ _ h i.isLt⟩

theorem writeBuf (s : State) (a : BitVec 11) (bs : List Byte) (h : ∀ a v, P (.wr (.long a) v)) : Effect P s (s.writeBuf a bs) := by
  induction bs generalizing s a with
  | nil => exact refl _ _
  | cons v vs ih => exact (memWrite s _ _ (h _ _)).trans (ih _ _)

theorem readBuf (s : State) (a : BitVec 11) (d : BitVec 9) (n : Nat) (h : ∀ a v, P (.rd (.long a) v)) :
    Effect P s (s.readBuf a d n) := by
  induction n generalizing s a d with
  | zero => exact refl _ _
  | succ n ih => exact ((memRead s _ (h _)).trans (hbufWrite _ _ _)).trans (ih _ _ _)

theorem readCursor (s : State) (h : ∀ a v, P (.rd (.long a) v)) : Effect P s s.readCursor.2 :=
  (memRead s _ (h _)).update rfl rfl rfl rfl rfl rfl rfl

theorem drainBytes (s : State) (p : BitVec 9) (n : Nat) (h : ∀ a v, P (.rd (.long a) v)) : Effect P s (s.drainBytes p n) := by
  induction n generalizing s p with
  | zero => exact refl _ _
  | succ n ih => exact ((readCursor s h).trans (hbufWrite _ _ _)).trans (ih _ _)

theorem finish (s : State) (h : ∀ a v, P (.rd (.long a) v))
    (hf : ∀ v, P (.rd (.short s.par.aRxflush) v) ∧ P (.wr (.short s.par.aRxflush) v))
    (he : ∀ v, P (.rd (.short s.par.aBbreg1) v) ∧ P (.wr (.short s.par.aBbreg1) v)) : Effect P s s.finish := by
  have h1 : Effect P s s.readCursor.2.readCursor.2 := (readCursor s h).trans (readCursor _ h)
  have h2 : Effect P s ({ s.readCursor.2.readCursor.2 with
      sessLqi := s.readCursor.1, sessRssi := s.readCursor.2.readCursor.1 } : State) := h1.update rfl rfl rfl rfl rfl rfl rfl
  exact (rxFlush_rxEnable h2 hf he).update rfl rfl rfl rfl rfl rfl rfl

/-- `Drain`: only reads of the FIFO, and flush and enable when it completes. -/
theorem drain (s : State) (p : BitVec 9) (c : Nat) (h : ∀ a v, P (.rd (.long a) v))
    (hc : s.sessRem.toNat ≤ c → (∀ v, P (.rd (.short s.par.aRxflush) v) ∧ P (.wr (.short s.par.aRxflush) v)) ∧
      ∀ v, P (.rd (.short s.par.aBbreg1) v) ∧ P (.wr (.short s.par.aBbreg1) v)) : Effect P s (s.drain p c) := by
  let n := min s.sessRem.toNat c
  have h1 : Effect P s ({ s.drainBytes p n with sessRem := s.sessRem - BitVec.ofNat 8 n } : State) :=
    (drainBytes s p n h).update rfl rfl rfl rfl rfl rfl rfl
  show Effect P s (if s.sessRem - BitVec.ofNat 8 n = 0#8 then _ else _)
  split
  · rename_i hz
    have hn : s.sessRem.toNat ≤ c := by
      have hlt := s.sessRem.isLt
      have := congrArg BitVec.toNat hz
      rw [BitVec.toNat_sub] at this
      simp only [BitVec.toNat_ofNat] at this
      omega
    refine h1.trans (finish _ h ?_ ?_)
    · rw [h1.par]; exact (hc hn).1
    · rw [h1.par]; exact (hc hn).2
  · exact h1.update rfl rfl rfl rfl rfl rfl rfl

theorem putResult (h : Effect P s t) (st : Status) (b0 b1 b2 : Byte) : Effect P s (t.putResult st b0 b1 b2) :=
  h.update rfl rfl rfl rfl rfl rfl rfl

theorem txTrigger (h : Effect P s t) (hc : ∀ v, P (.rd (.short s.par.aTxncon) v) ∧ P (.wr (.short s.par.aTxncon) v)) :
    Effect P s t.txTrigger :=
  h.trans (setBit _ _ _ (fun v => h.par ▸ (hc v).1) (fun v => h.par ▸ (hc v).2))

end Effect

/-- The locations a command may touch: its short registers of R64, and the long space. -/
def AtRegisters (rs : List BusAddr) (e : BusEvent) : Prop := eventLoc e ∈ rs ∨ ∃ a, eventLoc e = .long a

theorem AtRegisters.long_rd (rs : List BusAddr) (a : BitVec 11) (v : Byte) : AtRegisters rs (.rd (.long a) v) := .inr ⟨a, rfl⟩
theorem AtRegisters.long_wr (rs : List BusAddr) (a : BitVec 11) (v : Byte) : AtRegisters rs (.wr (.long a) v) := .inr ⟨a, rfl⟩
theorem AtRegisters.short_both {rs : List BusAddr} {a : BitVec 6} (h : .short a ∈ rs) (v : Byte) :
    AtRegisters rs (.rd (.short a) v) ∧ AtRegisters rs (.wr (.short a) v) := ⟨.inl h, .inl h⟩

/-- TX with its payload known is an effect at its registers. -/
theorem transmit_effect (s : State) (dest : BitVec 16) (plen : BitVec 8) (payload : List Byte) :
    Effect (AtRegisters (touchedShort s.par (.tx dest plen))) s (s.transmit dest plen payload) := by
  have rd : ∀ (t : State) (a : BitVec 6), BusAddr.short a ∈ touchedShort s.par (.tx dest plen) →
      Effect (AtRegisters (touchedShort s.par (.tx dest plen))) t (t.memRead (.short a)).2 :=
    fun t a h => Effect.memRead t _ (fun _ => .inl h)
  have h1 := rd s s.par.aSadrl (by simp [touchedShort])
  have h2 := h1.trans (rd _ s.par.aSadrh (by simp [touchedShort]))
  have h3 := h2.trans (rd _ s.par.aPanidl (by simp [touchedShort]))
  have h4 := h3.trans (rd _ s.par.aPanidh (by simp [touchedShort]))
  exact (Effect.txTrigger (Effect.trans (h4.update (u := { (State.memRead _ (.short s.par.aPanidh)).2 with seq := s.seq + 1#8 })
      rfl rfl rfl rfl rfl rfl rfl) (Effect.writeBuf _ s.par.aTxnfifo (Config.hdrLen :: (Config.hdrLen + plen) :: (_ ++ payload))
        (AtRegisters.long_wr _)))
      (AtRegisters.short_both (by simp [touchedShort]))).putResult _ _ _ _

/-- A command that answers a next state is an effect at the registers of R64 and the long space. -/
theorem exec_effect {i : Instr} {s t : State} (h : exec i s = .next t) :
    Effect (AtRegisters (touchedShort s.par i)) s t := by
  cases i with
  | tx dest plen =>
    simp only [exec, execTx] at h
    split at h <;> cases h
    exact transmit_effect _ _ _ _
  | txraw hlen flen =>
    simp only [exec, execTxraw] at h
    split at h <;> cases h
    have hm := AtRegisters.short_both (rs := touchedShort s.par (.txraw hlen flen)) (a := s.par.aTxncon)
      (by simp [touchedShort])
    have h1 := Effect.setBit s s.par.aTxncon s.par.bTxnackreq (fun v => (hm v).1) (fun v => (hm v).2)
    exact (Effect.txTrigger (h1.trans (Effect.writeBuf _ s.par.aTxnfifo _ (AtRegisters.long_wr _))) hm).putResult _ _ _ _
  | txres => cases h; exact (Effect.memRead s _ (fun v => .inl (by simp [eventLoc, touchedShort]))).putResult _ _ _ _
  | poll => cases h; exact (Effect.memRead s _ (fun v => .inl (by simp [eventLoc, touchedShort]))).putResult _ _ _ _
  | rds addr => cases h; exact (Effect.memRead s _ (fun v => .inl (by simp [eventLoc, touchedShort, shortAddr]))).putResult _ _ _ _
  | wrs addr data => cases h; exact (Effect.memWrite s _ _ (.inl (by simp [eventLoc, touchedShort, shortAddr]))).putResult _ _ _ _
  | rdl addr => cases h; exact (Effect.memRead s _ (AtRegisters.long_rd _ _)).putResult _ _ _ _
  | wrl addr data => cases h; exact (Effect.memWrite s _ _ (AtRegisters.long_wr _ _ _)).putResult _ _ _ _
  | rxwhole dst cap =>
    have hf := AtRegisters.short_both (rs := touchedShort s.par (.rxwhole dst cap)) (a := s.par.aRxflush) (by simp [touchedShort])
    have he := AtRegisters.short_both (rs := touchedShort s.par (.rxwhole dst cap)) (a := s.par.aBbreg1) (by simp [touchedShort])
    simp only [exec, execRxwhole] at h
    cases h
    split
    · exact (Effect.refl _ s).putResult _ _ _ _
    · have h1 := (Effect.setBit s s.par.aBbreg1 s.par.bRxdecinv (fun v => (he v).1) (fun v => (he v).2)).trans
        (Effect.memRead _ (.long s.par.aRxfifo) (AtRegisters.long_rd _ _))
      unfold State.receiveWhole
      dsimp only
      split
      · exact (Effect.rxFlush_rxEnable h1 hf he).putResult _ _ _ _
      · let len := s.rxDisable.radioAnswer (.long s.par.aRxfifo)
        have h2 := (h1.trans (Effect.hbufWrite _ dst len)).trans
          (Effect.readBuf _ (s.par.aRxfifo + 1#11) (dst + 1#9) len.toNat (AtRegisters.long_rd _))
        have h3 := (h2.trans (Effect.memRead _ (.long (s.par.aRxfifo + 1#11 + len.setWidth 11)) (AtRegisters.long_rd _ _))).trans
          (Effect.memRead _ (.long (s.par.aRxfifo + 2#11 + len.setWidth 11)) (AtRegisters.long_rd _ _))
        refine (Effect.rxFlush_rxEnable (Effect.update h3 ?_ ?_ ?_ ?_ ?_ ?_ ?_) hf he).putResult _ _ _ _ <;> rfl
  | rxchunkAbort first dst cap =>
    have hf := AtRegisters.short_both (rs := touchedShort s.par (.rxchunkAbort first dst cap)) (a := s.par.aRxflush)
      (by simp [touchedShort])
    have he := AtRegisters.short_both (rs := touchedShort s.par (.rxchunkAbort first dst cap)) (a := s.par.aBbreg1)
      (by simp [touchedShort])
    cases h
    exact (Effect.rxFlush_rxEnable (Effect.refl _ s) hf he).update rfl rfl rfl rfl rfl rfl rfl
  | rxchunkFirst dst cap =>
    have hf := AtRegisters.short_both (rs := touchedShort s.par (.rxchunkFirst dst cap)) (a := s.par.aRxflush) (by simp [touchedShort])
    have he := AtRegisters.short_both (rs := touchedShort s.par (.rxchunkFirst dst cap)) (a := s.par.aBbreg1) (by simp [touchedShort])
    simp only [exec, execRxchunkFirst] at h
    cases h
    split
    · exact (Effect.refl _ s).putResult _ _ _ _
    · split
      · exact (Effect.refl _ s).putResult _ _ _ _
      · have hd := Effect.setBit s s.par.aBbreg1 s.par.bRxdecinv (fun v => (he v).1) (fun v => (he v).2)
        have h1 := (hd.update (u := { s.rxDisable with sessCur := s.par.aRxfifo }) rfl rfl rfl rfl rfl rfl rfl).trans
          (Effect.readCursor _ (AtRegisters.long_rd _))
        have h2 := (h1.update (u := { (State.readCursor { s.rxDisable with sessCur := s.par.aRxfifo }).2 with
          sessRem := (State.readCursor { s.rxDisable with sessCur := s.par.aRxfifo }).1, sessOpen := true })
          rfl rfl rfl rfl rfl rfl rfl).trans (Effect.hbufWrite _ dst
          (State.readCursor { s.rxDisable with sessCur := s.par.aRxfifo }).1)
        exact h2.trans (Effect.drain _ (dst + 1#9) (cap.toNat - 1) (AtRegisters.long_rd _)
          (fun _ => by rw [h2.par]; exact ⟨hf, he⟩))
  | rxchunkNext dst cap =>
    simp only [exec, execRxchunkNext] at h
    cases h
    split
    · exact Effect.drain _ _ _ (AtRegisters.long_rd _) (fun _ =>
        ⟨AtRegisters.short_both (by simp [touchedShort]), AtRegisters.short_both (by simp [touchedShort])⟩)
    · exact (Effect.refl _ s).putResult _ _ _ _

/-- Every command that answers a next state has written `RESULT`, and `BUSY` is 0 (R27, R28). -/
theorem exec_result {i : Instr} {s t : State} (h : exec i s = .next t) :
    t.busy = false ∧ ∃ st b0 b1 b2, t.result = resultWord st b0 b1 b2 := by
  have hf : ∀ s : State, s.finish.busy = false ∧ ∃ st b0 b1 b2, s.finish.result = resultWord st b0 b1 b2 :=
    fun s => ⟨rfl, _, _, _, _, rfl⟩
  have hd : ∀ (s : State) p c, (s.drain p c).busy = false ∧ ∃ st b0 b1 b2, (s.drain p c).result = resultWord st b0 b1 b2 := by
    intro s p c
    unfold State.drain
    dsimp only
    split
    · exact hf _
    · exact ⟨rfl, _, _, _, _, rfl⟩
  cases i with
  | tx dest plen => simp only [exec, execTx] at h; split at h <;> cases h; exact ⟨rfl, _, _, _, _, rfl⟩
  | txraw hlen flen => simp only [exec, execTxraw] at h; split at h <;> cases h; exact ⟨rfl, _, _, _, _, rfl⟩
  | rxwhole dst cap =>
    cases h
    split
    · exact ⟨rfl, _, _, _, _, rfl⟩
    · unfold State.receiveWhole; dsimp only; split <;> exact ⟨rfl, _, _, _, _, rfl⟩
  | rxchunkFirst dst cap =>
    cases h
    split
    · exact ⟨rfl, _, _, _, _, rfl⟩
    · split
      · exact ⟨rfl, _, _, _, _, rfl⟩
      · exact hd _ _ _
  | rxchunkNext dst cap =>
    cases h
    split
    · exact hd _ _ _
    · exact ⟨rfl, _, _, _, _, rfl⟩
  | txres | poll | rds | wrs | rdl | wrl | rxchunkAbort => cases h; exact ⟨rfl, _, _, _, _, rfl⟩

end Sys2Proof.Machine
end

