-- ==== Sys2Proof/Laws/PerInstr.lean ====
section
/-! SUPPORT. The family `LegalWord`, one lemma a command: the word of a command carries the command's opcode (R81), and every
reserved bit of its format is 0 (R82 to R86, R88). -/
namespace Sys2Proof.Laws.LegalWord
open Sys2Proof.Machine

/-- The opcode of a command (R81). -/
def opcode : Instr → BitVec 4
  | .tx _ _ => 0x1#4
  | .txraw _ _ => 0x2#4
  | .txres => 0x3#4
  | .rxwhole _ _ => 0x4#4
  | .rxchunkAbort _ _ _ | .rxchunkFirst _ _ | .rxchunkNext _ _ => 0x5#4
  | .poll => 0x6#4
  | .rds _ => 0x8#4
  | .wrs _ _ => 0x9#4
  | .rdl _ => 0xA#4
  | .wrl _ _ => 0xB#4

/-- The word of `i` has the opcode of `i` and no reserved bit. -/
def Statement (i : Instr) : Prop :=
  fieldOp (encode i) = opcode i ∧ ∃ m, reservedMask (opcode i).toNat = some m ∧ encode i &&& m = 0#32

theorem tx (dest : BitVec 16) (plen : BitVec 8) : Statement (.tx dest plen) :=
  ⟨by simp [encode, opcode], _, rfl, reservedT_iff.mp (by simp [encode])⟩
theorem txraw (hlen flen : BitVec 8) : Statement (.txraw hlen flen) :=
  ⟨by simp [encode, opcode], _, rfl, reservedW_iff.mp (by simp [encode])⟩
theorem txres : Statement .txres := ⟨by decide, _, rfl, by decide⟩
theorem rxwhole (dst cap : BitVec 9) : Statement (.rxwhole dst cap) :=
  ⟨by simp [encode, opcode], _, rfl, reservedBWhole_iff.mp (by simp [encode])⟩
theorem rxchunkAbort (first : Bool) (dst cap : BitVec 9) : Statement (.rxchunkAbort first dst cap) :=
  ⟨by simp [encode, opcode], _, rfl, reservedBChunk_iff.mp (by simp [encode])⟩
theorem rxchunkFirst (dst cap : BitVec 9) : Statement (.rxchunkFirst dst cap) :=
  ⟨by simp [encode, opcode], _, rfl, reservedBChunk_iff.mp (by simp [encode])⟩
theorem rxchunkNext (dst cap : BitVec 9) : Statement (.rxchunkNext dst cap) :=
  ⟨by simp [encode, opcode], _, rfl, reservedBChunk_iff.mp (by simp [encode])⟩
theorem poll : Statement .poll := ⟨by decide, _, rfl, by decide⟩
theorem rds (addr : BitVec 11) : Statement (.rds addr) :=
  ⟨by simp [encode, opcode], _, rfl, reservedARead_iff.mp (by simp [encode])⟩
theorem wrs (addr : BitVec 11) (data : BitVec 8) : Statement (.wrs addr data) :=
  ⟨by simp [encode, opcode], _, rfl, reservedAWrite_iff.mp (by simp [encode])⟩
theorem rdl (addr : BitVec 11) : Statement (.rdl addr) :=
  ⟨by simp [encode, opcode], _, rfl, reservedARead_iff.mp (by simp [encode])⟩
theorem wrl (addr : BitVec 11) (data : BitVec 8) : Statement (.wrl addr data) :=
  ⟨by simp [encode, opcode], _, rfl, reservedAWrite_iff.mp (by simp [encode])⟩

end Sys2Proof.Laws.LegalWord
end

