-- ==== Sys2Proof/Laws/Step.lean ====
section
/-! SUPPORT. What a step can do, said once. -/
namespace Sys2Proof.Machine

/-- What one access of the host can do: run a command, raise on an illegal word, write one `HBUF` byte, or return data
(R28, R31, R34, R201). -/
theorem hostAccess_cases {a : HostAct} {s t : State} (h : hostAccess a s = .next t) :
    (∃ i, exec i { s with busy := true } = .next t ∧ s.busy = false) ∨
    (t = { s with result := 7#32, busy := false} ∧ s.busy = false) ∨
    (∃ i v, t = s.hbufWrite i v ∧ s.busy = false) ∨ (∃ d f, t = { s with hostData := d, freeCount := f }) := by
  have : resultWord .illegalCommand 0#8 0#8 0#8 = 7#32 := by decide
  cases a with
  | write off v =>
    simp only [hostAccess, hostWrite] at h
    split at h
    · simp only [startCommand] at h
      split at h
      · cases h
      · rename_i hb
        simp only [Bool.not_eq_true] at hb
        split at h
        · exact .inl ⟨_, h, hb⟩
        · cases h; exact .inr (.inl ⟨by simp [State.raise, State.putResult, this], hb⟩)
    · split at h
      · split at h
        · cases h
        · rename_i hb
          simp only [Bool.not_eq_true] at hb
          cases h; exact .inr (.inr (.inl ⟨_, _, rfl, hb⟩))
      · cases h; exact .inr (.inr (.inr ⟨_, _, rfl⟩))
  | read off =>
    simp only [hostAccess, hostRead] at h
    split at h
    · split at h
      · cases h
      · cases h
        refine .inr (.inr (.inr ?_))
        unfold State.readHbuf
        split
        · exact ⟨_, _, rfl⟩
        · exact ⟨_, _, rfl⟩
    · cases h; exact .inr (.inr (.inr ⟨_, _, rfl⟩))

/-- What a step can do: wait, or perform the host's next access. -/
theorem step_cases {s t : State} (h : step s = .next t) :
    (t = s ∧ s.host = []) ∨ (∃ a rest, s.host = a :: rest ∧ hostAccess a { s with host := rest } = .next t) := by
  unfold step at h
  split at h
  · cases h; exact .inl ⟨rfl, ‹_›⟩
  · exact .inr ⟨_, _, ‹_›, h⟩

end Sys2Proof.Machine
end

