-- ==== Sys2Proof/Laws/Transmit.lean ====
section
/-! SUPPORT. What the transmit commands leave alone. -/
namespace Sys2Proof.Machine

/-- TX counts the sequence number and leaves the session, `HBUF` and the host alone (R140). -/
theorem State.transmit_frame (s : State) (dest : BitVec 16) (plen : BitVec 8) (payload : List Byte) :
    (s.transmit dest plen payload).seq = s.seq + 1#8 ∧ (s.transmit dest plen payload).sessOpen = s.sessOpen ∧
      (s.transmit dest plen payload).sessRem = s.sessRem ∧ (s.transmit dest plen payload).sessCur = s.sessCur ∧
      (s.transmit dest plen payload).hbuf = s.hbuf ∧ (s.transmit dest plen payload).host = s.host := by
  simp [State.transmit, State.txTrigger, State.setBit, State.writeBuf_eq]

/-- TXRAW leaves the sequence number, the session, `HBUF` and the host alone (R141). -/
theorem State.transmitRaw_frame (s : State) (hlen flen : BitVec 8) (frame : List Byte) :
    (s.transmitRaw hlen flen frame).seq = s.seq ∧ (s.transmitRaw hlen flen frame).sessOpen = s.sessOpen ∧
      (s.transmitRaw hlen flen frame).sessRem = s.sessRem ∧ (s.transmitRaw hlen flen frame).sessCur = s.sessCur ∧
      (s.transmitRaw hlen flen frame).hbuf = s.hbuf ∧ (s.transmitRaw hlen flen frame).host = s.host := by
  simp [State.transmitRaw, State.txTrigger, State.txAckReq, State.setBit, State.writeBuf_eq]

end Sys2Proof.Machine
end

