-- ==== Sys2Proof/Tests/Slice0.lean ====
section
/-! SUPPORT. The model's own tests. Every expected value is one the spec prints (95_test_vectors, or the rule named), on the
reference radio of R70; and, for every statement with hypotheses, a theorem that some state and operands meet them. -/
namespace Sys2Proof.Tests
open Sys2Proof.Machine

/-! ## Helpers -/

/-- A state on the reference radio with the given `SEQ` and arrays. -/
def onRrm (seq : Byte) (rs rl : Memory) : State := { State.reset with seq := seq, radio := .reference ⟨rs, rl, 0, 0⟩ }

/-- Cells at consecutive addresses. -/
def cells (a : Nat) : List Byte → Memory
  | [] => []
  | b :: bs => (a, b) :: cells (a + 1) bs

/-- The receive FIFO of V-SRC-5: L = 5. -/
def frame5 : Memory := cells 0x300 [0x05#8, 0xA1#8, 0xA2#8, 0xA3#8, 0xA4#8, 0xA5#8, 0x6E#8, 0xD0#8]

/-- With that frame waiting. -/
def waiting : State := onRrm 0x42#8 [] frame5

/-- With a session open on that frame after two bytes were copied: 4 remain (V-SRC-7). -/
def receiving : State :=
  { waiting with
    sessOpen := true
    sessRem := 4#8
    sessCur := 0x302#11
    hbuf := cells 0x40 [0x05#8, 0xA1#8]
    trace := [.rd (.short 0x39#6) 0x00#8, .wr (.short 0x39#6) 0x04#8] }

/-- V-SRC-1: identity registers and payload set. -/
def ready : State :=
  { onRrm 0x42#8 [(1, 0x34#8), (2, 0x12#8), (3, 0xCD#8), (4, 0xAB#8)] [] with hbuf := cells 0 [1#8, 2#8, 3#8] }

/-- `RESULT` and the number of transactions after one command. -/
def outcome (i : Instr) (s : State) : Option (Word × Nat) :=
  match exec i s with
  | .next t => some (t.result, t.trace.length - s.trace.length)
  | _ => none

/-! ## Operands that do not fit are refused (R104) -/

theorem test_fits_tx_dest : (AsmLine.tx 0x10000 0).wellFormed = false := by decide
theorem test_fits_tx_plen : (AsmLine.tx 0 256).wellFormed = false := by decide
theorem test_fits_txraw_hlen : (AsmLine.txraw 256 0).wellFormed = false := by decide
theorem test_fits_txraw_flen : (AsmLine.txraw 0 256).wellFormed = false := by decide
theorem test_fits_rxwhole : (AsmLine.rxwhole 512 0).wellFormed = false ∧ (AsmLine.rxwhole 0 512).wellFormed = false := by decide
theorem test_fits_first :
    (AsmLine.rxchunkFirst 512 0).wellFormed = false ∧ (AsmLine.rxchunkFirst 0 512).wellFormed = false := by decide
theorem test_fits_next :
    (AsmLine.rxchunkNext 512 0).wellFormed = false ∧ (AsmLine.rxchunkNext 0 512).wellFormed = false := by decide
theorem test_fits_abort :
    (AsmLine.rxchunkAbortOps 512 0).wellFormed = false ∧ (AsmLine.rxchunkAbortOps 0 512).wellFormed = false := by decide
theorem test_fits_rxchunk :
    (AsmLine.rxchunk 512 0 0 0).wellFormed = false ∧ (AsmLine.rxchunk 0 512 0 0).wellFormed = false ∧
      (AsmLine.rxchunk 0 0 2 0).wellFormed = false ∧ (AsmLine.rxchunk 0 0 0 2).wellFormed = false := by decide
theorem test_fits_register :
    (AsmLine.rds 2048).wellFormed = false ∧ (AsmLine.wrs 2048 0).wellFormed = false ∧ (AsmLine.wrs 0 256).wellFormed = false ∧
      (AsmLine.rdl 2048).wellFormed = false ∧ (AsmLine.wrl 2048 0).wellFormed = false ∧ (AsmLine.wrl 0 256).wellFormed = false := by
  decide
theorem test_fits_directives :
    (AsmLine.word (2 ^ 32)).wellFormed = false ∧ (AsmLine.setpan 0x10000).wellFormed = false ∧
      (AsmLine.setsaddr 0x10000).wellFormed = false ∧ (AsmLine.hbuf 512 [0]).wellFormed = false ∧
      (AsmLine.hbuf 0 [255, 256]).wellFormed = false := by decide
theorem test_fits_at_the_top : (AsmLine.tx 0xFFFF 255).wellFormed = true ∧ (AsmLine.rxwhole 511 511).wellFormed = true ∧
    (AsmLine.wrl 2047 255).wellFormed = true ∧ (AsmLine.rxchunk 511 511 1 1).wellFormed = true := by decide

/-! ## Decoding words written out from the encodings (R82 to R86) -/

theorem test_decode_tx : decode 0b00000000000000010000001100000001#32 = .ok (.tx 0x0001#16 3#8) := by decide
theorem test_decode_txraw : decode 0b00000000000011000000100100000010#32 = .ok (.txraw 9#8 12#8) := by decide
theorem test_decode_txres : decode 0b00000000000000000000000000000011#32 = .ok .txres := by decide
theorem test_decode_rxwhole : decode 0b00000001000000000000000000000100#32 = .ok (.rxwhole 0#9 128#9) := by decide
theorem test_decode_abort : decode 0b00000000000001100000000000110101#32 = .ok (.rxchunkAbort true 0#9 3#9) := by decide
theorem test_decode_first : decode 0b00000000000010000000000000010101#32 = .ok (.rxchunkFirst 0#9 4#9) := by decide
theorem test_decode_next : decode 0b00000000000010000000010000000101#32 = .ok (.rxchunkNext 4#9 4#9) := by decide
theorem test_decode_poll : decode 0b00000000000000000000000000000110#32 = .ok .poll := by decide
theorem test_decode_rds : decode 0b00000000000001111111000100001000#32 = .ok (.rds 0x7F1#11) := by decide
theorem test_decode_wrs : decode 0b00110100000000000000000100001001#32 = .ok (.wrs 0x01#11 0x34#8) := by decide
theorem test_decode_rdl : decode 0b00000000000000110000000000001010#32 = .ok (.rdl 0x300#11) := by decide
theorem test_decode_wrl : decode 0b01100110000000000000101100001011#32 = .ok (.wrl 0x00B#11 0x66#8) := by decide

/-- The words of section 2.1 that are illegal. -/
theorem test_illegal_words :
    [0x00000000#32, 0x00000007#32, 0x0000310C#32, 0xFFFFFFFF#32].map decode = List.replicate 4 (.error .unassignedOpcode) ∧
    [0x00000106#32, 0x00000013#32, 0x00010311#32, 0x01000002#32, 0x04000004#32, 0x00000014#32, 0x00000024#32, 0x00000044#32,
      0x000000C5#32, 0x0100000A#32, 0x00080008#32].map decode = List.replicate 11 (.error .reservedBits) := by decide

/-- R31: the word's lowest byte lies at the lowest address. -/
theorem test_bytes_are_little_endian :
    decodeBytes [0x09#8, 0x01#8, 0x00#8, 0x34#8, 0xFF#8] = .ok (.wrs 0x01#11 0x34#8, [0xFF#8]) ∧
      decodeBytes [0x09#8, 0x01#8, 0x00#8] = .error .truncated ∧ decodeTableWord 32 0x34000109 = some (.wrs 0x01#11 0x34#8) := by
  decide

/-! ## Framing (V-SRC-2, V-SRC-3) -/

theorem test_short_framing : [0x00#6, 0x01#6, 0x1B#6, 0x24#6, 0x31#6, 0x39#6, 0x3F#6].map (fun a => (shortFrame a false, shortFrame a true)) =
    [(0x00#8, 0x01#8), (0x02#8, 0x03#8), (0x36#8, 0x37#8), (0x48#8, 0x49#8), (0x62#8, 0x63#8), (0x72#8, 0x73#8),
      (0x7E#8, 0x7F#8)] := by decide
theorem test_long_framing : [0x001#11, 0x00B#11, 0x308#11, 0x3FF#11, 0x400#11, 0x700#11, 0x7FF#11].map
      (fun a => (longFrame0 a, longFrame1 a false, longFrame1 a true)) =
    [(0x80#8, 0x20#8, 0x30#8), (0x81#8, 0x60#8, 0x70#8), (0xE1#8, 0x00#8, 0x10#8), (0xFF#8, 0xE0#8, 0xF0#8),
      (0x80#8, 0x08#8, 0x18#8), (0xE0#8, 0x08#8, 0x18#8), (0xFF#8, 0xE8#8, 0xF8#8)] := by decide

/-! ## Assembly (R104, R110; section 2.1 and V-SRC-1) -/

theorem test_parse_tx : parseLine [' ', 'T', 'x', ' ', '0', 'x', '0', '0', '0', '1', ',', ' ', '3'] = some (.tx 1 3) := by decide
theorem test_parse_hex_digits : parseLine ['r', 'd', 'l', ' ', '0', 'X', '7', 'f', 'F'] = some (.rdl 0x7FF) := by decide
theorem test_parse_first : parseLine ['r', 'x', 'c', 'h', 'u', 'n', 'k', '.', 'f', 'i', 'r', 's', 't', ' ', '0', ',', '4'] =
    some (.rxchunkFirst 0 4) := by decide
theorem test_parse_refuses :
    parseLine ['t', 'x', ' ', '1'] = none ∧ parseLine ['p', 'o', 'l', 'l', ' ', '1'] = none ∧
      parseLine ['t', 'x', ' ', 'a', ',', '1'] = none ∧ parseLine ['n', 'o', 'p'] = none := by decide
theorem test_setpan : assemble Params.default (.setpan 0x1234) = some [cmdWrite 0x12000209#32, cmdWrite 0x34000109#32] := by decide
theorem test_setsaddr : assemble Params.default (.setsaddr 0xABCD) = some [cmdWrite 0xAB000409#32, cmdWrite 0xCD000309#32] := by
  decide
theorem test_hbuf_line : assemble Params.default (.hbuf 511 [1, 2]) = some [.write 0x3FF#10 1#32, .write 0x200#10 2#32] := by decide

/-! ## Meanings -/

/-- V-SRC-1: the FIFO image. -/
theorem test_tx_writes_the_frame :
    (match exec (.tx 0x0001#16 3#8) ready with
      | .next t => (t.trace.drop 4).take 14
      | _ => []) =
    (writeEvents 0x000#11 [0x09#8, 0x0C#8, 0x61#8, 0x88#8, 0x42#8, 0x34#8, 0x12#8, 0x01#8, 0x00#8, 0xCD#8, 0xAB#8, 0x01#8, 0x02#8,
      0x03#8]) := by decide
theorem test_tx_result : outcome (.tx 0x0001#16 3#8) ready = some (0x000C4200#32, 20) ∧
    outcome (.tx 0xFFFF#16 0#8) { ready with seq := 0xFF#8 } = some (0x0009FF00#32, 17) := by decide
theorem test_tx_faults_on_unwritten_payload : exec (.tx 1#16 4#8) ready = .fault .unwrittenHbuf := rfl
theorem test_txraw : outcome (.txraw 9#8 0#8) waiting = some (0x00000000#32, 6) ∧
    outcome (.txraw 2#8 3#8) ready = some (0x00000000#32, 9) := by decide
/-- V-SRC-4 and section 2.5. -/
theorem test_txres : [0x21#8, 0x01#8, 0x20#8, 0xFE#8, 0xFF#8].map (fun b => outcome .txres (onRrm 0#8 [(0x24, b)] [])) =
    [some (0x00002102#32, 1), some (0x00000103#32, 1), some (0x00002000#32, 1), some (0x0000FE00#32, 1),
      some (0x0000FF02#32, 1)] := by decide
theorem test_rxwhole : outcome (.rxwhole 0#9 5#9) waiting = some (0xD06E0500#32, 14) ∧
    outcome (.rxwhole 0#9 4#9) waiting = some (0x00000501#32, 7) ∧ outcome (.rxwhole 0#9 8#9) receiving = some (5#32, 0) := by decide
/-- Section 2.6: the indices wrap past 511. -/
theorem test_rxwhole_wraps :
    (match exec (.rxwhole 510#9 16#9) (onRrm 0#8 [] (cells 0x300 [3#8, 1#8, 2#8, 3#8, 0x40#8, 0x50#8])) with
      | .next t => t.hbuf
      | _ => []) = [(0, 2#8), (1, 3#8), (510, 3#8), (511, 1#8)] := by decide
theorem test_first : outcome (.rxchunkFirst 0#9 3#9) waiting = some (0x00000300#32, 5) ∧
    outcome (.rxchunkFirst 0#9 8#9) waiting = some (0xD06E0000#32, 14) := by decide
theorem test_first_errors : outcome (.rxchunkFirst 0#9 0#9) waiting = some (1#32, 0) ∧
    outcome (.rxchunkFirst 0#9 0#9) receiving = some (5#32, 0) := by decide
theorem test_next : outcome (.rxchunkNext 0x42#9 3#9) receiving = some (0x00000100#32, 3) ∧
    outcome (.rxchunkNext 0x42#9 4#9) receiving = some (0xD06E0000#32, 10) := by decide
theorem test_next_idle : outcome (.rxchunkNext 0#9 4#9) waiting = some (6#32, 0) ∧
    outcome (.rxchunkNext 0#9 0#9) receiving = some (0x00000400#32, 0) := by decide
theorem test_abort : outcome (.rxchunkAbort false 0#9 0#9) waiting = some (4#32, 4) ∧
    outcome (.rxchunkAbort true 1#9 2#9) receiving = some (4#32, 4) := by decide
/-- Section 2.8. -/
theorem test_poll : [0x01#8, 0x08#8, 0x10#8, 0x19#8, 0xFF#8, 0xE6#8].map (fun b => outcome .poll (onRrm 0#8 [(0x31, b)] [])) =
    [some (0x200#32, 1), some (0x100#32, 1), some (0x400#32, 1), some (0x700#32, 1), some (0x700#32, 1), some (0#32, 1)] := by decide
/-- Section 2.2. -/
theorem test_registers : outcome (.rds 0x002#11) (onRrm 0#8 [(2, 0x12#8)] []) = some (0x00001200#32, 1) ∧
    outcome (.rds 0x7F1#11) (onRrm 0#8 [(0x31, 0x08#8)] []) = some (0x00000800#32, 1) ∧
    outcome (.rdl 0x7FF#11) (onRrm 0#8 [] [(0x7FF, 0x5A#8)]) = some (0x00005A00#32, 1) := by decide
theorem test_register_writes :
    (match exec (.wrs 0x7F1#11 0x5A#8) waiting with | .next t => t.trace | _ => []) = [.wr (.short 0x31#6) 0x5A#8] ∧
    (match exec (.wrl 0x00B#11 0x66#8) waiting with | .next t => t.trace | _ => []) = [.wr (.long 0x00B#11) 0x66#8] := by decide

/-! ## The machine -/

/-- Section 2.9: `STAT` after reset, with `SEQ_INIT` = 0x10. -/
theorem test_reset_stat : State.statWord { State.reset with seq := 0x10#8 } = 0x00100000#32 := by decide
theorem test_reset_is_canonical : State.reset.hbuf.wf = true := by decide
/-- A word stored with `withFetchWord` is the command the next step runs. -/
theorem test_step_runs_poll : step (waiting.withFetchWord 32 6) = exec .poll { waiting with busy := true } := rfl
theorem test_step_waits : step State.reset = .next State.reset := rfl

/-! ## Every hypothesis of a statement is met somewhere (the name is the statement's) -/

/-- A session open on `frame5`, and the host about to write RXCHUNK.NEXT with `CAP` = 1 to `CMD`. -/
def nextPending : State := receiving.withFetchWord 32 0x00020005

theorem witness_ReadOnlyAndUnmappedOffsetsAreInert :
    (0x004#10 ≠ 0x000#10 ∧ (0x004#10).toNat < 0x200) ∧
    (0x1FF#10 ≠ 0x004#10 ∧ 0x1FF#10 ≠ 0x008#10 ∧ 0x1FF#10 ≠ 0x00C#10 ∧ (0x1FF#10).toNat < 0x200) ∧
    State.reset.busy = false ∧ decode 0x00000006#32 = .ok .poll ∧ IllegalWord 0x00000007#32 :=
  ⟨by decide, by decide, rfl, by decide, trivial⟩
theorem witness_HostReadsResultAndBufferBytes : ready.busy = false ∧ ready.hbuf.read (2#9).toNat = some 3#8 := by decide
theorem witness_HostReadOfUnwrittenByteCompletes :
    State.reset.busy = false ∧ State.reset.hbuf.read (511#9).toNat = none := by decide
theorem witness_ModelFaultsAndHostDuties :
    (3 < (4#8).toNat ∧ ready.hbuf.read 3 = none) ∧ (254 < (255#8).toNat ∧ ready.hbuf.read 254 = none) ∧
    ({ ready with busy := true } : State).busy = true := by decide
theorem witness_StepRunsTheDecodedCommand :
    (nextPending.host = .write 0x000#10 0x00020005#32 :: [] ∧ nextPending.busy = false) ∧
    decode 0x00020005#32 = .ok (.rxchunkNext 0#9 1#9) ∧ State.reset.host = [] ∧
    decode (BitVec.ofNat 32 (6 % 2 ^ 32)) = .ok .poll := by decide
theorem witness_IllegalWordsOnlyRaise : IllegalWord 0x00000106#32 ∧ IllegalWord 0x00000007#32 ∧ ¬ IllegalWord 0x00000006#32 ∧
    ready.busy = false := by
  refine ⟨?_, trivial, ?_, rfl⟩
  · show 0x00000106#32 &&& 0xFFFFFFF0#32 ≠ 0#32; decide
  · show ¬ 0x00000006#32 &&& 0xFFFFFFF0#32 ≠ 0#32; decide
theorem witness_EncodeOfDecodeIsTheWord : decode 0x00060035#32 = .ok (.rxchunkAbort true 0#9 3#9) := by decide
theorem witness_ChunkFormIsSelectedByAbortThenFirst :
    [0x00060035#32, 0x00000025#32, 0x00080015#32, 0x00080405#32].map (fun w : Word =>
      (w.extractLsb' 0 4, w &&& 0xFC0000C0#32, w.getLsbD 5, w.getLsbD 4)) =
    [(5#4, 0#32, true, true), (5#4, 0#32, true, false), (5#4, 0#32, false, true), (5#4, 0#32, false, false)] := by decide
theorem witness_IssuingAppendsToTheTrace :
    State.reset.radio = .oracle ∧ waiting.radio = .reference ⟨[], frame5, 0, 0⟩ := ⟨rfl, rfl⟩
theorem witness_ReadBufLaysAnswersIntoTheBuffer : 512 ≤ 512 := Nat.le_refl _
/-- A word of every row (the hypothesis of `Encodes`), for the twelve statements of a command. -/
theorem witness_Encodes :
    0x00010301#32 &&& 0x000000FF#32 = 0x00000001#32 ∧ 0x000C0902#32 &&& 0xFF0000FF#32 = 0x00000002#32 ∧
    0x00000003#32 &&& 0xFFFFFFFF#32 = 0x00000003#32 ∧ 0x01000004#32 &&& 0xFC0000FF#32 = 0x00000004#32 ∧
    0x00060035#32 &&& 0xFC0000EF#32 = 0x00000025#32 ∧ 0x00080015#32 &&& 0xFC0000FF#32 = 0x00000015#32 ∧
    0x00080405#32 &&& 0xFC0000FF#32 = 0x00000005#32 ∧ 0x00000006#32 &&& 0xFFFFFFFF#32 = 0x00000006#32 ∧
    0x0007F108#32 &&& 0xFFF800FF#32 = 0x00000008#32 ∧ 0x34000109#32 &&& 0x00F800FF#32 = 0x00000009#32 ∧
    0x0003000A#32 &&& 0xFFF800FF#32 = 0x0000000A#32 ∧ 0x66000B0B#32 &&& 0x00F800FF#32 = 0x0000000B#32 := by decide
/-- A word of every opcode with a reserved bit set (the hypotheses of `ReservedBitsRaise`). -/
theorem witness_ReservedBitsRaise :
    [(0x00010311#32, 0x000000F0#32), (0x01000002#32, 0xFF0000F0#32), (0x00000013#32, 0xFFFFFFF0#32), (0x04000004#32, 0xFC0000F0#32),
      (0x000000C5#32, 0xFC0000C0#32), (0x00000106#32, 0xFFFFFFF0#32), (0x00080008#32, 0xFFF800F0#32), (0x00800009#32, 0x00F800F0#32),
      (0x0100000A#32, 0xFFF800F0#32), (0x0008000B#32, 0x00F800F0#32)].map
      (fun p : Word × Word => (p.1.extractLsb' 0 4, p.1 &&& p.2 != 0#32)) =
    [(1#4, true), (2#4, true), (3#4, true), (4#4, true), (5#4, true), (6#4, true), (8#4, true), (9#4, true), (10#4, true),
      (11#4, true)] := by decide
theorem witness_TxTransmitsTheSynthesisedFrame :
    [1#8, 2#8, 3#8].length = (3#8).toNat ∧ ∀ k, k < (3#8).toNat → ready.hbuf.read k = [1#8, 2#8, 3#8][k]? := by decide
theorem witness_TxrawTransmitsTheHostsFrame :
    [1#8, 2#8].length = (2#8).toNat ∧ ∀ k, k < (2#8).toNat → ready.hbuf.read k = [1#8, 2#8][k]? := by decide
theorem witness_SequenceNumbersCountTransmissions :
    ∃ t u, runHost [cmdWrite 0x00010301#32, cmdWrite 0x00010311#32, cmdWrite 0x00000902#32] ready = .next t ∧
      isTx (cmdWrite 0x00010301#32) = true ∧ hostAccess (cmdWrite 0x00010301#32) t = .next u := ⟨_, _, rfl, rfl, rfl⟩
theorem witness_OnlyTxReadsOrWritesSeq :
    (∃ t, exec (.tx 1#16 3#8) ready = .next t) ∧ (∀ dest plen, Instr.poll ≠ .tx dest plen) ∧ ∃ t, exec .poll ready = .next t :=
  ⟨⟨_, rfl⟩, by intros; simp, ⟨_, rfl⟩⟩
/-- The three cases of RXWHOLE; `waiting` answers the length 5, at the boundary of the capacities 4 and 5. -/
theorem witness_RxwholeReceivesOrRejectsTheFrame :
    receiving.sessOpen = true ∧ waiting.sessOpen = false ∧ waiting.rxDisable.radioAnswer (.long 0x300#11) = 5#8 ∧
    (4#9).toNat < (5#8).toNat ∧ (5#8).toNat ≤ (5#9).toNat := by decide
/-- The four cases of RXCHUNK.FIRST; the length 5 completes from capacity 6 on. -/
theorem witness_FirstChunkOpensTheSession :
    receiving.sessOpen = true ∧ waiting.sessOpen = false ∧ 5#9 ≠ 0#9 ∧ 6#9 ≠ 0#9 ∧
    waiting.rxDisable.radioAnswer (.long 0x300#11) = 5#8 ∧ (5#9).toNat - 1 < (5#8).toNat ∧
    (5#8).toNat ≤ (6#9).toNat - 1 := by decide
/-- The three cases of RXCHUNK.NEXT; 4 bytes remain. -/
theorem witness_NextChunkContinuesTheSession :
    waiting.sessOpen = false ∧ receiving.sessOpen = true ∧ (3#9).toNat < receiving.sessRem.toNat ∧
    receiving.sessRem.toNat ≤ (4#9).toNat := by decide
theorem witness_SessionOpensAndClosesOnlyByItsCommands :
    (∃ t, exec (.rxchunkFirst 0#9 3#9) waiting = .next t ∧ waiting.sessOpen = false ∧ t.sessOpen = true) ∧
    (∃ t, exec (.rxchunkAbort false 0#9 0#9) receiving = .next t ∧ receiving.sessOpen = true ∧ t.sessOpen = false) ∧
    ∃ t, exec (.rxchunkNext 0#9 4#9) receiving = .next t ∧ receiving.sessOpen = true ∧ t.sessOpen = false :=
  ⟨⟨_, rfl, rfl, rfl⟩, ⟨_, rfl, rfl, rfl⟩, ⟨_, rfl, rfl, rfl⟩⟩
theorem witness_ErrorsAreReportedInOrder :
    IllegalWord 0x000000C5#32 ∧ (¬ IllegalWord 0x00060035#32 ∧ (0x00060035#32).extractLsb' 0 4 = 0x5#4 ∧
      (0x00060035#32).getLsbD 5 = true) ∧ receiving.busy = false ∧ receiving.sessOpen = true ∧ waiting.sessOpen = false := by
  refine ⟨?_, ⟨?_, by decide, by decide⟩, by decide⟩
  · show 0x000000C5#32 &&& 0xFC0000C0#32 ≠ 0#32; decide
  · show ¬ 0x00060035#32 &&& 0xFC0000C0#32 ≠ 0#32; decide
theorem witness_ReceptionStaysInsideTheCapacity :
    (∃ t, exec (.rxchunkFirst 0x40#9 3#9) waiting = .next t) ∧ (∃ t, exec (.rxchunkNext 0x40#9 3#9) receiving = .next t) ∧
    (3#9).toNat ≤ (0x43#9 - 0x40#9).toNat ∧ (∃ t, exec (.rxwhole 0x40#9 3#9) waiting = .next t) ∧
    (3#9).toNat < (0x44#9 - 0x40#9).toNat ∧ (∃ t, exec .poll waiting = .next t) :=
  ⟨⟨_, rfl⟩, ⟨_, rfl⟩, by decide, ⟨_, rfl⟩, by decide, ⟨_, rfl⟩⟩
theorem witness_ChunkedReceptionEqualsWhole :
    waiting.sessOpen = false ∧ 1#9 ≠ 0#9 ∧ (waiting.rxDisable.radioAnswer (.long 0x300#11)).toNat ≤ (5#9).toNat ∧
    (waiting.rxDisable.radioAnswer (.long 0x300#11)).toNat ≤ ((1#9).toNat - 1) + ([0#9, 2#9, 3#9].map BitVec.toNat).sum := by decide
theorem witness_ChunkCommandsAreBounded :
    (∃ t, exec (.rxchunkFirst 0#9 6#9) waiting = .next t) ∧ (∃ t, exec (.rxchunkNext 0#9 4#9) receiving = .next t) ∧
    ∃ t, exec (.rxchunkAbort false 0#9 0#9) receiving = .next t := ⟨⟨_, rfl⟩, ⟨_, rfl⟩, ⟨_, rfl⟩⟩
theorem witness_AbortTwiceIsAbortOnce :
    (∃ t, exec (.rxchunkAbort false 0#9 0#9) receiving = .next t) ∧ 8#9 ≠ 0#9 := ⟨⟨_, rfl⟩, by decide⟩
theorem witness_SecondPollReportsNothing :
    waiting.radio = .reference ⟨[], frame5, 0, 0⟩ ∧ Memory.wfZ 64 [] = true ∧
    (0x7F1#11).extractLsb' 0 6 = waiting.par.aIntstat ∧ (∃ t, exec .poll waiting = .next t) ∧
    ∃ t, exec (.rds 0x7F1#11) waiting = .next t := ⟨rfl, rfl, rfl, ⟨_, rfl⟩, ⟨_, rfl⟩⟩
theorem witness_ReferenceRadioKeepsItsArrays :
    DistinctRegisters Params.default ∧ Memory.wfZ 64 [(0x31, 0x08#8)] = true ∧ Memory.wfZ 2048 frame5 = true := by
  unfold DistinctRegisters; decide
theorem witness_TransactionsPerCommand :
    (∃ t, exec (.tx 1#16 3#8) ready = .next t) ∧ (∃ t, exec (.txraw 9#8 3#8) ready = .next t) ∧ waiting.sessOpen = false ∧
    3#9 ≠ 0#9 ∧ receiving.sessOpen = true ∧ IllegalWord 0x00000007#32 ∧ ready.busy = false :=
  ⟨⟨_, rfl⟩, ⟨_, rfl⟩, rfl, by decide, rfl, trivial, rfl⟩
theorem witness_CommandsTouchOnlyTheirRegisters :
    ∃ t e, exec .txres waiting = .next t ∧ e ∈ t.trace.drop waiting.trace.length := ⟨_, _, rfl, List.mem_cons_self⟩
theorem witness_StepsOnlyExtendTheTrace : ∃ t, step nextPending = .next t := ⟨_, rfl⟩
theorem witness_TraceStaysAnsweredByTheOracle : (State.reset.withFetchWord 32 6).TraceInv ∧
    ∃ t, step (State.reset.withFetchWord 32 6) = .next t :=
  ⟨fun _ before loc v after h => by simp [State.withFetchWord, State.reset] at h, ⟨_, rfl⟩⟩
theorem witness_BusyIsZeroBetweenSteps : (∃ t, exec .poll ready = .next t) ∧ nextPending.busy = false ∧
    ∃ t, step nextPending = .next t := ⟨⟨_, rfl⟩, rfl, ⟨_, rfl⟩⟩
theorem witness_SessionInvariantIsKept : nextPending.SessionInv ∧ ∃ t, step nextPending = .next t :=
  ⟨⟨by decide, by decide⟩, ⟨_, rfl⟩⟩
theorem witness_MemoriesStayCanonical : nextPending.MemInv ∧ ∃ t, step nextPending = .next t :=
  ⟨⟨by decide, by decide, by decide⟩, ⟨_, rfl⟩⟩
theorem witness_ResultNeverHoldsAReservedCode : nextPending.ResultInv ∧ ∃ t, step nextPending = .next t :=
  ⟨⟨by decide, by decide⟩, ⟨_, rfl⟩⟩
theorem witness_ReceptionStaysDisabledInASession :
    DistinctRegisters nextPending.par ∧ nextPending.HostSparesReception ∧ nextPending.ReceptionHeld ∧
    ∃ t, step nextPending = .next t ∧ t.sessOpen = true := by
  refine ⟨by unfold DistinctRegisters; decide, ?_, fun _ => ⟨0x04#8, by decide, by decide⟩, ⟨_, rfl, rfl⟩⟩
  intro w addr data h hd
  cases h
  have : decode (BitVec.ofNat 32 (0x00020005 % 2 ^ 32)) = .ok (.rxchunkNext 0#9 1#9) := by decide
  rw [this] at hd
  cases hd
theorem witness_OpenSessionIsNotFlushedOrEnabled :
    DistinctRegisters receiving.par ∧ (∀ addr data, Instr.rxchunkNext 0#9 1#9 ≠ .wrs addr data) ∧ receiving.sessOpen = true ∧
    ∃ t, exec (.rxchunkNext 0#9 1#9) receiving = .next t ∧ t.sessOpen = true :=
  ⟨by unfold DistinctRegisters; decide, by intros; simp, rfl, ⟨_, rfl, rfl⟩⟩

end Sys2Proof.Tests
end

section
/-! The two statements about the machine as a whole: what a step adds to the bus trace, and the invariants at reset. -/
namespace Sys2Proof.Machine

/-! ## What a step adds to the bus trace -/

/-- From `s` to `t` transactions were appended to the bus trace, each read answered by the radio (R57), the radio saw
exactly these (R65), and the parameters and the host's pending accesses stayed. -/
structure AppendsAnswered (s t : State) : Prop where
  events : ∃ es, s.Answered es ∧ t.trace = s.trace ++ es ∧ t.radio = (s.issueAll es).radio
  par : t.par = s.par
  host : t.host = s.host

namespace AppendsAnswered
variable {s s' t : State}

/-- The empty list of transactions. -/
theorem of_same_bus (ht : t.trace = s.trace) (hr : t.radio = s.radio) (hp : t.par = s.par) (hh : t.host = s.host) :
    AppendsAnswered s t :=
  ⟨⟨[], s.Answered_nil, by simpa using ht, hr⟩, hp, hh⟩

/-- Every effect appends answered transactions. -/
theorem of_effect {P : BusEvent → Prop} (h : Effect P s t) : AppendsAnswered s t := by
  obtain ⟨es, ha, ht, hr, -⟩ := h.events
  exact ⟨⟨es, ha, ht, hr⟩, h.par, h.host⟩

/-- What was appended does not depend on the fields of the first state that the radio cannot see. -/
theorem events_congr (h : AppendsAnswered s' t) (ht : s'.trace = s.trace) (hr : s'.radio = s.radio) (hp : s'.par = s.par) :
    ∃ es, s.Answered es ∧ t.trace = s.trace ++ es ∧ t.radio = (s.issueAll es).radio := by
  obtain ⟨es, ha, htr, hra⟩ := h.events
  exact ⟨es, ha.congr hp ht hr, ht ▸ htr, hra.trans (State.issueAll_radio_congr es hp hr)⟩

end AppendsAnswered

/-- A command started with `BUSY` set (R28, log 14) appends answered transactions to the state before the start. -/
theorem exec_busy_appendsAnswered {i : Instr} {s t : State} (h : exec i { s with busy := true } = .next t) :
    AppendsAnswered s t :=
  have he := AppendsAnswered.of_effect (exec_effect h)
  ⟨he.events_congr rfl rfl rfl, he.par, he.host⟩

/-- Only a command uses the bus; every other access of the host appends nothing. -/
theorem hostAccess_appendsAnswered {a : HostAct} {s t : State} (h : hostAccess a s = .next t) : AppendsAnswered s t := by
  rcases hostAccess_cases h with ⟨i, hexec, -⟩ | ⟨rfl, -⟩ | ⟨i, v, rfl, -⟩ | ⟨d, f, rfl⟩
  · exact exec_busy_appendsAnswered hexec
  · exact .of_same_bus rfl rfl rfl rfl
  · exact .of_same_bus rfl rfl rfl rfl
  · exact .of_same_bus rfl rfl rfl rfl

/-- Settles O48: a waiting step appends nothing, any other performs the host's first pending access, which appends answered
transactions and leaves the rest of the list pending. -/
theorem stepsOnlyExtendTheTrace : Obligations.StepsOnlyExtendTheTrace := by
  intro s t h
  rcases step_cases h with ⟨rfl, hnil⟩ | ⟨a, rest, hcons, hacc⟩
  · exact ⟨[], t.Answered_nil, by simp, rfl, rfl, by simp [hnil]⟩
  · have hx := hostAccess_appendsAnswered hacc
    obtain ⟨es, ha, ht, hr⟩ := hx.events_congr (s := s) rfl rfl rfl
    exact ⟨es, ha, ht, hr, hx.par, by rw [hx.host, hcons, List.tail_cons]⟩

/-! ## The invariants at reset -/

/-- An empty trace holds no read that the oracle could have answered otherwise. -/
theorem State.traceInv_of_trace_nil {s : State} (h : s.trace = []) : s.TraceInv := by
  intro _ before loc v after htrace
  simp [h] at htrace

/-- With no session open there is no reception to hold back (R169). -/
theorem State.receptionHeld_of_idle {s : State} (h : s.sessOpen = false) : s.ReceptionHeld := by
  intro hopen
  simp [h] at hopen

/-- With no session open, R37 asks only that no bytes remain. -/
theorem State.sessionInv_of_idle {s : State} (h : s.sessOpen = false) (hrem : s.sessRem = 0#8) : s.SessionInv :=
  ⟨by simp [h], fun _ => hrem⟩

/-- The registers of R6 are distinct under its defaults (log 2). -/
theorem distinctRegisters_default : DistinctRegisters Params.default := by
  unfold DistinctRegisters
  decide

/-- Settles O56: reset has no session, an empty `HBUF`, an empty trace, `RESULT` 0 and the default parameters. -/
theorem resetMeetsTheInvariants : Obligations.ResetMeetsTheInvariants := by
  have hmem : State.reset.MemInv := ⟨Memory.wf_nil, trivial⟩
  have hresult : State.reset.ResultInv := by
    unfold State.ResultInv
    decide
  exact ⟨State.sessionInv_of_idle rfl rfl, hmem, hresult, State.traceInv_of_trace_nil rfl, State.receptionHeld_of_idle rfl,
    rfl, distinctRegisters_default⟩

end Sys2Proof.Machine
end

section
/-! Decoding what was encoded, the state at reset, and the host's window: one equation for each kind of access, then the
statements about them. -/
namespace Sys2Proof.Machine

/-! ## Decoding what was encoded (R81 to R89) -/

/-- The word of a command decodes to the command. -/
@[simp] theorem decode_encode (i : Instr) : decode (encode i) = .ok i := by
  cases i with
  | tx | txraw | txres | rxwhole | poll | rds | wrs | rdl | wrl => simp [encode, decode, checked]
  | rxchunkAbort | rxchunkFirst | rxchunkNext => simp [encode, decode, checked, chunkForm]

/-- The bytes of a legal word decode to its command, whatever follows them (R31). -/
theorem decodeBytes_wordBytes_of_ok {w : Word} {i : Instr} (h : decode w = .ok i) (rest : List Byte) :
    decodeBytes (wordBytes w ++ rest) = .ok (i, rest) := by
  rw [decodeBytes_wordBytes, h]

/-- Settles O9: `decode` inverts `encode` command by command, and a word's bytes decode as the word does. -/
theorem decodeOfEncodeIsTheCommand : Obligations.DecodeOfEncodeIsTheCommand :=
  fun i => ⟨decode_encode i, decodeBytes_wordBytes_of_ok (decode_encode i)⟩

/-! ## The host window (R28, R31 to R34) -/

/-- Raising `ILLEGAL_COMMAND` ends the command at once: `RESULT` alone is changed (R201). -/
theorem State.raise_illegalCommand {s : State} (hb : s.busy = false) :
    ({ s with busy := true } : State).raise .illegalCommand 0#8 = { s with result := 7#32 } := by
  cases s
  subst hb
  rfl

theorem hostWrite_cmd (w : Word) (s : State) : hostWrite offCmd w s = startCommand w s := if_pos rfl

theorem startCommand_of_ok {w : Word} {i : Instr} {s : State} (hb : s.busy = false) (hw : decode w = .ok i) :
    startCommand w s = exec i { s with busy := true } := by
  simp [startCommand, hb, hw]

theorem startCommand_of_error {w : Word} {e : DecodeError} {s : State} (hb : s.busy = false) (hw : decode w = .error e) :
    startCommand w s = .next { s with result := 7#32 } := by
  simp [startCommand, hb, hw, State.raise_illegalCommand hb]

theorem hostWrite_hbuf (i : BitVec 9) (v : Word) {s : State} (hb : s.busy = false) :
    hostWrite (0x200#10 + i.setWidth 10) v s = .next (s.hbufWrite i (v.extractLsb' 0 8)) := by
  simp only [hostWrite, if_neg (hbufOffset_ne_cmd i), hbufIndex_hbuf, hb]
  rfl

/-- Below the `HBUF` offsets only `CMD` takes a write (R34). -/
theorem hostWrite_of_readOnly {off : BitVec 10} (h : off ≠ offCmd) (hlt : off.toNat < 0x200) (v : Word) (s : State) :
    hostWrite off v s = .next s := by
  simp only [hostWrite, if_neg h, hbufIndex_of_lt hlt]

theorem hostRead_register {off : BitVec 10} (hlt : off.toNat < 0x200) (s : State) :
    hostRead off s = .next { s with hostData := s.registerWord off } := by
  simp only [hostRead, hbufIndex_of_lt hlt]

/-- `CMD` and every offset not in the map read as 0 (R31, R34). -/
theorem State.registerWord_of_unmapped {off : BitVec 10} (hres : off ≠ offResult) (hstat : off ≠ offStat)
    (hcur : off ≠ offCursor) (s : State) : s.registerWord off = 0#32 := by
  rw [State.registerWord, if_neg hres, if_neg hstat, if_neg hcur]

theorem hostRead_hbuf (i : BitVec 9) {s : State} (hb : s.busy = false) :
    hostRead (0x200#10 + i.setWidth 10) s = .next (s.readHbuf i) := by
  simp only [hostRead, hbufIndex_hbuf, hb]
  rfl

theorem State.readHbuf_of_some {s : State} {i : BitVec 9} {b : Byte} (h : s.hbuf.read i.toNat = some b) :
    s.readHbuf i = { s with hostData := b.setWidth 32 } := by
  simp only [State.readHbuf, h]

theorem State.readHbuf_of_none {s : State} {i : BitVec 9} (h : s.hbuf.read i.toNat = none) :
    s.readHbuf i =
      { s with hostData := (Config.unwrittenByte s.freeCount).setWidth 32, freeCount := s.freeCount + 1 } := by
  simp only [State.readHbuf, h]

/-- What a write of `CMD` can answer: what the decoded command answers, or `ILLEGAL_COMMAND` (R88, R201). -/
theorem startCommand_inv {w : Word} {s t : State} (h : startCommand w s = .next t) :
    (∃ i, decode w = .ok i ∧ exec i { s with busy := true } = .next t) ∨ t = { s with result := 7#32 } := by
  by_cases hb : s.busy = true
  · simp [startCommand, hb] at h
  · rw [Bool.not_eq_true] at hb
    cases hw : decode w with
    | ok i => exact .inl ⟨i, rfl, startCommand_of_ok hb hw ▸ h⟩
    | error e =>
      rw [startCommand_of_error hb hw] at h
      cases h
      exact .inr rfl

/-- What a host write can answer: what its command answers, or one `HBUF` byte written, or nothing changed. -/
theorem hostWrite_inv {off : BitVec 10} {v : Word} {s t : State} (h : hostWrite off v s = .next t) :
    (off = offCmd ∧ startCommand v s = .next t) ∨ (∃ i, t = s.hbufWrite i (v.extractLsb' 0 8)) ∨ t = s := by
  simp only [hostWrite] at h
  split at h
  · next hoff => exact .inl ⟨hoff, h⟩
  · split at h
    · split at h <;> cases h
      exact .inr (.inl ⟨_, rfl⟩)
    · cases h
      exact .inr (.inr rfl)

/-- A host read changes what the host sees and the count of free values only. -/
theorem hostRead_inv {off : BitVec 10} {s t : State} (h : hostRead off s = .next t) :
    ∃ d f, t = { s with hostData := d, freeCount := f } := by
  simp only [hostRead] at h
  split at h
  · next i _ =>
    split at h <;> cases h
    cases hbyte : s.hbuf.read i.toNat with
    | some b => exact ⟨_, _, State.readHbuf_of_some hbyte⟩
    | none => exact ⟨_, _, State.readHbuf_of_none hbyte⟩
  · cases h
    exact ⟨_, _, rfl⟩

/-- The one fault of a command is the `HBUF` byte nothing has written (R220 (a)). -/
theorem exec_fault {i : Instr} {s : State} {r : Fault} (h : exec i s = .fault r) : r = .unwrittenHbuf := by
  cases i with
  | tx dest plen =>
    simp only [exec, execTx] at h
    split at h <;> cases h
    rfl
  | txraw hlen flen =>
    simp only [exec, execTxraw] at h
    split at h <;> cases h
    rfl
  | _ => cases h

/-- With `BUSY` at 0 a write of `CMD` always has a move (R220 (b)). -/
theorem startCommand_ne_hostWhileBusy {w : Word} {s : State} (hb : s.busy = false) :
    startCommand w s ≠ .fault .hostWhileBusy := by
  intro h
  cases hw : decode w with
  | ok i =>
    rw [startCommand_of_ok hb hw] at h
    cases exec_fault h
  | error e =>
    rw [startCommand_of_error hb hw] at h
    cases h

theorem illegalWord_iff_of_mask {w m : Word} (h : reservedMask (fieldOp w).toNat = some m) :
    IllegalWord w ↔ w &&& m ≠ 0#32 := by
  rw [IllegalWord, show reservedMask (w.extractLsb' 0 4).toNat = some m from h]

theorem illegalWord_of_no_mask {w : Word} (h : reservedMask (fieldOp w).toNat = none) : IllegalWord w := by
  rw [IllegalWord, show reservedMask (w.extractLsb' 0 4).toNat = none from h]
  trivial

/-- The decoder's check of a format's reserved bits is the mask's. -/
theorem illegalWord_iff_checked {w m : Word} {n : Nat} {ok : Bool} (i : Instr) (hop : (fieldOp w).toNat = n)
    (hm : reservedMask n = some m) (hok : ok = true ↔ w &&& m = 0#32) : IllegalWord w ↔ ∃ e, checked ok i = .error e := by
  rw [illegalWord_iff_of_mask (hop ▸ hm), ne_eq, ← hok]
  cases ok <;> simp [checked]

/-- A word is illegal (R88) exactly when it decodes to no command. -/
theorem illegalWord_iff_decode_error {w : Word} : IllegalWord w ↔ ∃ e, decode w = .error e := by
  unfold decode
  split
  next hop => exact illegalWord_iff_checked _ hop rfl reservedT_iff
  next hop => exact illegalWord_iff_checked _ hop rfl reservedW_iff
  next hop => exact illegalWord_iff_checked _ hop rfl reservedN_iff
  next hop => exact illegalWord_iff_checked _ hop rfl reservedBWhole_iff
  next hop => exact illegalWord_iff_checked _ hop rfl reservedBChunk_iff
  next hop => exact illegalWord_iff_checked _ hop rfl reservedN_iff
  next hop => exact illegalWord_iff_checked _ hop rfl reservedARead_iff
  next hop => exact illegalWord_iff_checked _ hop rfl reservedAWrite_iff
  next hop => exact illegalWord_iff_checked _ hop rfl reservedARead_iff
  next hop => exact illegalWord_iff_checked _ hop rfl reservedAWrite_iff
  next =>
    have hmask : reservedMask (fieldOp w).toNat = none := by
      unfold reservedMask
      split <;> simp_all
    simp [illegalWord_of_no_mask hmask]

/-! ## The statements about reset and the window -/

/-- Settles O1: every field of the reset state is its literal value. -/
theorem resetPutsEveryElementAtItsValue : Obligations.ResetPutsEveryElementAtItsValue :=
  ⟨rfl, rfl, rfl, rfl, rfl, rfl, fun _ => rfl, rfl⟩

/-- The fields of `STAT` (R32). -/
theorem State.statWord_fields (s : State) :
    s.statWord.getLsbD 0 = s.busy ∧ s.statWord.getLsbD 1 = s.sessOpen ∧ s.statWord.extractLsb' 2 6 = 0#6 ∧
      s.statWord.extractLsb' 8 8 = s.sessRem ∧ s.statWord.extractLsb' 16 8 = s.seq ∧
      s.statWord.extractLsb' 24 8 = 0#8 := by
  refine ⟨?_, ?_, ?_, ?_, ?_, ?_⟩
  · simp only [State.statWord, BitVec.getLsbD_append]; simp
  · simp only [State.statWord, BitVec.getLsbD_append]; simp
  all_goals
    simp (disch := decide) only [State.statWord, BitVec.extractLsb'_append_eq_of_add_le,
      BitVec.extractLsb'_append_eq_of_le]
    simp

/-- The fields of `CURSOR` (R33). -/
theorem State.cursorWord_fields (s : State) :
    s.cursorWord.extractLsb' 0 11 = s.sessCur ∧ s.cursorWord.extractLsb' 11 21 = 0#21 := by
  constructor
  all_goals
    simp (disch := decide) only [State.cursorWord, BitVec.extractLsb'_append_eq_of_add_le,
      BitVec.extractLsb'_append_eq_of_le]
    simp

/-- Settles O2: both offsets are registers, so a read returns the word of their fields and a write is ignored. -/
theorem statAndCursorShowTheState : Obligations.StatAndCursorShowTheState := by
  intro s
  refine ⟨⟨s.statWord, hostRead_register (by decide) s, s.statWord_fields⟩,
    ⟨s.cursorWord, hostRead_register (by decide) s, s.cursorWord_fields⟩, fun v => ⟨?_, ?_⟩⟩
  · exact hostWrite_of_readOnly (by decide) (by decide) v s
  · exact hostWrite_of_readOnly (by decide) (by decide) v s

/-- Settles O3: below the `HBUF` offsets only `CMD` takes a write, and an illegal word is one that decodes to no command. -/
theorem readOnlyAndUnmappedOffsetsAreInert : Obligations.ReadOnlyAndUnmappedOffsetsAreInert := by
  refine ⟨fun off v s hcmd hlt => hostWrite_of_readOnly hcmd hlt v s, fun off s hres hstat hcur hlt => ?_,
    fun i b s hb => ⟨_, hostWrite_hbuf i _ hb, ?_⟩, fun w s => ⟨hostWrite_cmd w s, fun hb => ⟨?_, ?_, ?_⟩⟩⟩
  · rw [hostRead_register hlt, State.registerWord_of_unmapped hres hstat hcur]
  · rw [State.hbufWrite_hbuf, Memory.read_write_same, BitVec.extractLsb'_setWidth_of_le (by decide), BitVec.extractLsb'_eq_self]
  · exact startCommand_ne_hostWhileBusy hb
  · intro i hw
    exact startCommand_of_ok hb hw
  · intro hill
    obtain ⟨e, he⟩ := illegalWord_iff_decode_error.mp hill
    exact startCommand_of_error hb he

/-- Settles O4: an `HBUF` offset carries its own index, and a byte written changes no other. -/
theorem hostReadsResultAndBufferBytes : Obligations.HostReadsResultAndBufferBytes := by
  refine ⟨fun s => hostRead_register (by decide) s, fun i s b hb hbyte => ?_, fun i v s hb => ⟨_, hostWrite_hbuf i v hb, ?_⟩⟩
  · rw [hostRead_hbuf i hb, State.readHbuf_of_some hbyte]
  · intro j
    simp only [Memory.read_write, BitVec.toNat_inj]

/-- Settles O5: the byte is the free value of the count so far (log 8). -/
theorem hostReadOfUnwrittenByteCompletes : Obligations.HostReadOfUnwrittenByteCompletes := by
  intro i s hb hbyte
  exact ⟨_, by rw [hostRead_hbuf i hb, State.readHbuf_of_none hbyte]⟩

/-- Settles O7: a step hands the host's next access to `hostAccess`, and a legal word in `CMD` runs its command. -/
theorem stepRunsTheDecodedCommand : Obligations.StepRunsTheDecodedCommand := by
  have hnext : ∀ (s : State) a rest, s.host = a :: rest → step s = hostAccess a { s with host := rest } := by
    intro s a rest h
    simp only [step, h]
  refine ⟨fun s w rest i h hb hw => ⟨?_, decodeBytes_wordBytes_of_ok hw⟩, hnext, fun s h => by simp only [step, h],
    fun s nbits w i hw => ?_⟩
  · rw [hnext s _ _ h]
    exact startCommand_of_ok hb hw
  · exact startCommand_of_ok (s := { s with busy := false }) rfl hw

end Sys2Proof.Machine
end

section
/-! The invariants of a step: `BUSY`, the session, the canonical memories, and reception disabled in a session. -/
namespace Sys2Proof.Machine

/-! ## `BUSY` (R28) -/

theorem hostAccess_keeps_idle {a : HostAct} {s t : State} (h : hostAccess a s = .next t) (hs : s.busy = false) :
    t.busy = false := by
  rcases hostAccess_cases h with ⟨i, hexec, -⟩ | ⟨rfl, -⟩ | ⟨i, v, rfl, -⟩ | ⟨d, f, rfl⟩
  · exact (exec_result hexec).1
  · rfl
  · exact hs
  · exact hs

/-- Settles O50: every command ends with the write of `RESULT` that clears `BUSY`; no other access sets it. -/
theorem busyIsZeroBetweenSteps : Obligations.BusyIsZeroBetweenSteps := by
  refine ⟨fun i s t h => (exec_result h).1, fun s t hs h => ?_⟩
  rcases step_cases h with ⟨rfl, -⟩ | ⟨a, rest, -, hacc⟩
  · exact hs
  · exact hostAccess_keeps_idle hacc hs

/-! ## What every step keeps -/

/-- A property of the state is kept by every step when every command keeps it, an `HBUF` write of the host keeps it, and it
does not look at the fields a step changes beside: `RESULT`, `BUSY` and the host's side. -/
theorem step_keeps {P : State → Prop}
    (hframe : ∀ s, P s → ∀ result busy host hostData freeCount, P { s with result, busy, host, hostData, freeCount })
    (hhbuf : ∀ s, P s → ∀ i v, P (s.hbufWrite i v)) (hexec : ∀ i s t, exec i s = .next t → P s → P t)
    {s t : State} (hs : P s) (h : step s = .next t) : P t := by
  rcases step_cases h with ⟨rfl, -⟩ | ⟨a, rest, -, hacc⟩
  · exact hs
  · have hs' := hframe s hs s.result s.busy rest s.hostData s.freeCount
    rcases hostAccess_cases hacc with ⟨i, hi, -⟩ | ⟨rfl, -⟩ | ⟨i, v, rfl, -⟩ | ⟨d, f, rfl⟩
    · exact hexec _ _ _ hi (hframe s hs s.result true rest s.hostData s.freeCount)
    · exact hframe s hs _ _ _ _ _
    · exact hhbuf _ hs' _ _
    · exact hframe s hs _ _ _ _ _

/-! ## The session (R23, R37) -/

/-- R37 in one line. -/
theorem State.sessionInv_iff {s : State} : s.SessionInv ↔ (s.sessOpen = true ↔ 0 < s.sessRem.toNat) := by
  unfold State.SessionInv
  have hzero : s.sessRem = 0#8 ↔ s.sessRem.toNat = 0 := by rw [← BitVec.toNat_inj]; rfl
  rw [hzero]
  cases s.sessOpen <;> simp [Nat.pos_iff_ne_zero]

/-- `Drain` leaves the session open exactly when bytes remain (R161, R162). -/
theorem State.sessionInv_drain {s : State} (p : BitVec 9) (c : Nat) (ho : s.sessOpen = true) :
    (s.drain p c).SessionInv := by
  obtain ⟨hrem, hopen⟩ := s.drain_session p c ho
  rw [State.sessionInv_iff, hopen, hrem]
  omega

/-- What a command can do to the session: RXCHUNK.ABORT closes it, RXCHUNK.FIRST opens one when none is open, RXCHUNK.NEXT drains
an open one, and in every other case it stays as it is. -/
theorem exec_session_cases {i : Instr} {s t : State} (h : exec i s = .next t) :
    (t.sessOpen = s.sessOpen ∧ t.sessRem = s.sessRem) ∨
    (∃ first dst cap, i = .rxchunkAbort first dst cap ∧ t.sessOpen = false ∧ t.sessRem = 0#8) ∨
    (∃ dst cap, i = .rxchunkFirst dst cap ∧ s.sessOpen = false ∧ t = s.openSession dst cap) ∨
    (∃ dst cap, i = .rxchunkNext dst cap ∧ s.sessOpen = true ∧ t = s.drain dst cap.toNat) := by
  cases i with
  | tx dest plen =>
    simp only [exec, execTx] at h
    split at h <;> cases h
    obtain ⟨-, hopen, hrem, -⟩ := s.transmit_frame dest plen _
    exact .inl ⟨hopen, hrem⟩
  | txraw hlen flen =>
    simp only [exec, execTxraw] at h
    split at h <;> cases h
    obtain ⟨-, hopen, hrem, -⟩ := s.transmitRaw_frame hlen flen _
    exact .inl ⟨hopen, hrem⟩
  | txres | poll | rds | wrs | rdl | wrl => cases h; exact .inl ⟨rfl, rfl⟩
  | rxwhole dst cap =>
    cases h
    split
    · exact .inl ⟨rfl, rfl⟩
    · obtain ⟨hopen, hrem, -⟩ := s.receiveWhole_frame dst cap
      exact .inl ⟨hopen, hrem⟩
  | rxchunkAbort first dst cap => cases h; exact .inr (.inl ⟨_, _, _, rfl, rfl, rfl⟩)
  | rxchunkFirst dst cap =>
    cases h
    split
    · exact .inl ⟨rfl, rfl⟩
    · split
      · exact .inl ⟨rfl, rfl⟩
      · next hidle _ => exact .inr (.inr (.inl ⟨dst, cap, rfl, by simpa using hidle, rfl⟩))
  | rxchunkNext dst cap =>
    cases h
    split
    · next hopen => exact .inr (.inr (.inr ⟨dst, cap, rfl, hopen, rfl⟩))
    · exact .inl ⟨rfl, rfl⟩

theorem exec_keeps_sessionInv {i : Instr} {s t : State} (h : exec i s = .next t) (hs : s.SessionInv) : t.SessionInv := by
  rcases exec_session_cases h with ⟨hopen, hrem⟩ | ⟨_, _, _, -, hopen, hrem⟩ | ⟨dst, cap, -, -, rfl⟩ | ⟨dst, cap, -, hopen, rfl⟩
  · rw [State.sessionInv_iff] at hs ⊢
    rwa [hopen, hrem]
  · exact State.sessionInv_of_idle hopen hrem
  · exact State.sessionInv_drain _ _ rfl
  · exact State.sessionInv_drain _ _ hopen

/-- Settles O51: a session ends open exactly when `Drain` leaves bytes; nothing but a command touches it. -/
theorem sessionInvariantIsKept : Obligations.SessionInvariantIsKept := by
  intro s t
  exact step_keeps (fun _ h _ _ _ _ _ => h) (fun _ h _ _ => h) (fun _ _ _ hexec => exec_keeps_sessionInv hexec)

/-- Settles O37: of the cases of `exec_session_cases`, only RXCHUNK.FIRST starts with no session open, and `Drain` closes one
exactly when its capacity covers the bytes that remain. -/
theorem sessionOpensAndClosesOnlyByItsCommands : Obligations.SessionOpensAndClosesOnlyByItsCommands := by
  intro i s t h
  rcases exec_session_cases h with ⟨hsame, -⟩ | ⟨f, dst, cap, rfl, hopen, -⟩ | ⟨dst, cap, rfl, hidle, -⟩ | ⟨dst, cap, rfl, hopen, rfl⟩
  · exact ⟨fun hs ht => by simp [hsame, hs] at ht, fun hs ht => by simp [hsame, hs] at ht⟩
  · exact ⟨fun _ ht => by simp [hopen] at ht, fun _ _ => .inl ⟨f, dst, cap, rfl⟩⟩
  · exact ⟨fun _ _ => ⟨dst, cap, rfl⟩, fun hs _ => by simp [hidle] at hs⟩
  · obtain ⟨hrem, hiff⟩ := s.drain_session dst cap.toNat hopen
    refine ⟨fun hs _ => by simp [hopen] at hs, fun _ hclosed => .inr ⟨dst, cap, rfl, ?_, ?_⟩⟩
    · rw [← Bool.not_eq_true, hiff] at hclosed
      exact Nat.le_of_not_lt hclosed
    · exact (s.sessionInv_drain dst cap.toNat hopen).2 hclosed

/-! ## Canonical memories (R29, R70) -/

/-- The canonical form depends on `HBUF` and the radio only. -/
theorem State.MemInv.of_radio_eq {s t : State} (h : s.MemInv) (hw : t.hbuf.wf = true) (hr : t.radio = s.radio) : t.MemInv :=
  ⟨hw, hr ▸ h.2⟩

/-- A transaction keeps the canonical form of the reference radio's arrays (R70, R71). -/
theorem Rrm.wfZ_observe {m : Rrm} (p : Params) (e : BusEvent) (h : m.rs.wfZ 64 = true ∧ m.rl.wfZ 2048 = true) :
    (m.observe p e).rs.wfZ 64 = true ∧ (m.observe p e).rl.wfZ 2048 = true := by
  obtain ⟨hs, hl⟩ := h
  have hshort : ∀ (a : BitVec 6) v, (m.rs.writeZ a.toNat v).wfZ 64 = true := fun a v => Memory.wfZ_writeZ _ _ hs a.isLt
  have hlong : ∀ (a : BitVec 11) v, (m.rl.writeZ a.toNat v).wfZ 2048 = true := fun a v => Memory.wfZ_writeZ _ _ hl a.isLt
  match e with
  | .rd (.short a) _ =>
    simp only [Rrm.observe]
    split
    · exact ⟨hshort a 0#8, hl⟩
    · exact ⟨hs, hl⟩
  | .rd (.long _) _ => exact ⟨hs, hl⟩
  | .wr (.short a) v =>
    simp only [Rrm.observe]
    split
    · exact ⟨hshort a _, hl⟩
    · split <;> exact ⟨hshort a _, hl⟩
  | .wr (.long a) v => exact ⟨hs, hlong a v⟩

theorem State.memInv_issue {s : State} (e : BusEvent) (h : s.MemInv) : (s.issue e).MemInv := by
  obtain ⟨hw, hr⟩ := h
  refine ⟨hw, ?_⟩
  rw [State.issue_radio]
  cases hradio : s.radio with
  | oracle => trivial
  | reference m =>
    rw [hradio] at hr
    exact Rrm.wfZ_observe s.par e hr

theorem State.memInv_issueAll {s : State} (es : List BusEvent) (h : s.MemInv) : (s.issueAll es).MemInv := by
  induction es generalizing s with
  | nil => exact h
  | cons e es ih => exact ih (State.memInv_issue e h)

/-- Whatever a command does, it keeps the memories canonical. -/
theorem Effect.memInv {P : BusEvent → Prop} {s t : State} (he : Effect P s t) (h : s.MemInv) : t.MemInv := by
  obtain ⟨es, -, -, hradio, -⟩ := he.events
  exact (State.memInv_issueAll es h).of_radio_eq (he.wf h.1) hradio

/-- Settles O52: a command writes `HBUF` inside its 512 bytes and the radio's arrays by transactions; a host write is in range. -/
theorem memoriesStayCanonical : Obligations.MemoriesStayCanonical := by
  intro s t
  exact step_keeps (fun _ h _ _ _ _ _ => h) (fun _ h i v => h.of_radio_eq (Memory.wf_write _ v h.1 i.isLt) rfl)
    (fun _ _ _ hexec => (exec_effect hexec).memInv)

/-! ## Reception stays disabled in a session (R35, R169) -/

/-- The byte last written to a register after two runs of transactions is that of the second, if it wrote one. -/
theorem lastWriteTo_append (a : BitVec 6) (es es' : List BusEvent) :
    lastWriteTo a (es ++ es') = (lastWriteTo a es').or (lastWriteTo a es) := by
  induction es with
  | nil => simp [lastWriteTo]
  | cons e es ih =>
    simp only [List.cons_append, lastWriteTo, ih]
    cases lastWriteTo a es' <;> rfl

/-- The transaction is no write of the short register `a`. -/
def Spares (a : BitVec 6) (e : BusEvent) : Prop := ∀ v, e ≠ .wr (.short a) v

theorem Spares.rd (a : BitVec 6) (l : BusAddr) (v : Byte) : Spares a (.rd l v) := fun _ => nofun

/-- A command that does not touch a register does not write it. -/
theorem Spares.of_atRegisters {a : BitVec 6} {rs : List BusAddr} (h : .short a ∉ rs) {e : BusEvent} (he : AtRegisters rs e) :
    Spares a e := by
  rintro v rfl
  rcases he with hmem | ⟨b, hb⟩
  · exact h hmem
  · cases hb

/-- A transaction that spares a register leaves the byte last written to it to the transactions after. -/
theorem lastWriteTo_cons_of_spares {a : BitVec 6} {e : BusEvent} (he : Spares a e) (es : List BusEvent) :
    lastWriteTo a (e :: es) = lastWriteTo a es := by
  simp only [lastWriteTo]
  split
  · next hv => exact hv.symm
  · next hnone =>
    rw [hnone]
    split
    · next b v => exact if_neg fun hb => he v (by rw [hb])
    · rfl

theorem lastWriteTo_eq_none {a : BitVec 6} {es : List BusEvent} (h : ∀ e ∈ es, Spares a e) : lastWriteTo a es = none := by
  induction es with
  | nil => rfl
  | cons e es ih =>
    obtain ⟨he, hes⟩ := List.forall_mem_cons.mp h
    rw [lastWriteTo_cons_of_spares he, ih hes]

/-- The last write of the receive-disable register in the trace is a disable (R35). -/
def State.ReceptionDisabled (s : State) : Prop :=
  ∃ v, lastWriteTo s.par.aBbreg1 s.trace = some v ∧ v.getLsbD s.par.bRxdecinv = true

theorem State.receptionHeld_iff {s : State} : s.ReceptionHeld ↔ (s.sessOpen = true → s.ReceptionDisabled) := Iff.rfl

theorem Effect.mono {P Q : BusEvent → Prop} {s t : State} (h : Effect P s t) (hPQ : ∀ e, P e → Q e) : Effect Q s t := by
  obtain ⟨es, ha, ht, hr, hp⟩ := h.events
  exact { h with events := ⟨es, ha, ht, hr, fun e he => hPQ e (hp e he)⟩ }

/-- Transactions that spare the receive-disable register leave reception disabled. -/
theorem Effect.receptionDisabled {s t : State} (h : Effect (Spares s.par.aBbreg1) s t) (hs : s.ReceptionDisabled) :
    t.ReceptionDisabled := by
  obtain ⟨es, -, ht, -, hspares⟩ := h.events
  unfold State.ReceptionDisabled
  rwa [h.par, ht, lastWriteTo_append, lastWriteTo_eq_none hspares, Option.none_or]

/-- `RxDisable` (R122) writes the byte read with the disable bit set. -/
theorem State.rxDisable_receptionDisabled (s : State) : s.rxDisable.ReceptionDisabled := by
  refine ⟨byteSetBit (s.radioAnswer (.short s.par.aBbreg1)) s.par.bRxdecinv, ?_, ?_⟩
  · rw [State.rxDisable, State.setBit_eq, State.issueAll_trace, lastWriteTo_append]
    simp [setBitEvents, lastWriteTo, byteSetBit, bitMask]
  · simp [byteSetBit, bitMask, State.rxDisable, State.setBit_eq]

/-- While bytes remain, `Drain` only reads (R161). -/
theorem Effect.drain_of_open {a : BitVec 6} {s : State} {p : BitVec 9} {c : Nat} (hs : s.sessOpen = true)
    (ht : (s.drain p c).sessOpen = true) : Effect (Spares a) s (s.drain p c) := by
  have hlt := (s.drain_session p c hs).2.mp ht
  exact Effect.drain s p c (fun _ _ => Spares.rd _ _ _) (fun hle => absurd hlt (by omega))

/-- A session that RXCHUNK.FIRST leaves open has reception disabled: after `RxDisable` it only reads (R165). -/
theorem State.openSession_receptionDisabled {s : State} {dst cap : BitVec 9} (ht : (s.openSession dst cap).sessOpen = true) :
    (s.openSession dst cap).ReceptionDisabled := by
  let s1 : State := { s.rxDisable with sessCur := s.par.aRxfifo }
  let s2 : State := { s1.readCursor.2 with sessRem := s1.readCursor.1, sessOpen := true }
  have hread : Effect (Spares s1.par.aBbreg1) s1 s2 :=
    (Effect.readCursor s1 (fun _ _ => Spares.rd _ _ _)).update rfl rfl rfl rfl rfl rfl rfl
  have hcopy : Effect (Spares s1.par.aBbreg1) s1 (s.openSession dst cap) :=
    (hread.trans (Effect.hbufWrite s2 dst s1.readCursor.1)).trans (Effect.drain_of_open rfl ht)
  exact hcopy.receptionDisabled s.rxDisable_receptionDisabled

/-- The receive-disable register is none of the registers that the commands other than reception touch (R6, R64). -/
theorem DistinctRegisters.bbreg1_ne {p : Params} (h : DistinctRegisters p) :
    p.aBbreg1 ≠ p.aPanidl ∧ p.aBbreg1 ≠ p.aPanidh ∧ p.aBbreg1 ≠ p.aSadrl ∧ p.aBbreg1 ≠ p.aSadrh ∧
      p.aBbreg1 ≠ p.aTxncon ∧ p.aBbreg1 ≠ p.aTxstat ∧ p.aBbreg1 ≠ p.aIntstat := by
  obtain ⟨hnodup, -⟩ := h
  simp only [List.nodup_cons, List.mem_cons, List.not_mem_nil, not_or] at hnodup
  tauto

theorem exec_rxwhole_of_open {s : State} (dst cap : BitVec 9) (hs : s.sessOpen = true) :
    exec (.rxwhole dst cap) s = .next (s.raise .sessionOpen 0#8) := by
  simp [exec, execRxwhole, hs]

theorem exec_rxchunkFirst_of_open {s : State} (dst cap : BitVec 9) (hs : s.sessOpen = true) :
    exec (.rxchunkFirst dst cap) s = .next (s.raise .sessionOpen 0#8) := by
  simp [exec, execRxchunkFirst, hs]

theorem exec_rxchunkNext_of_open {s : State} (dst cap : BitVec 9) (hs : s.sessOpen = true) :
    exec (.rxchunkNext dst cap) s = .next (s.drain dst cap.toNat) := by
  simp [exec, execRxchunkNext, hs]

/-- A session that a command finds open and leaves open: the command does not write the receive-disable register, unless it is
a WRS of it (R169). -/
theorem exec_spares_of_open {i : Instr} {s t : State} (h : exec i s = .next t) (hd : DistinctRegisters s.par)
    (hwrs : ∀ addr data, i = .wrs addr data → shortAddr addr ≠ s.par.aBbreg1) (hs : s.sessOpen = true)
    (ht : t.sessOpen = true) : Effect (Spares s.par.aBbreg1) s t := by
  obtain ⟨hpl, hph, hsl, hsh, htc, hts, hin⟩ := hd.bbreg1_ne
  have haway : .short s.par.aBbreg1 ∉ touchedShort s.par i → Effect (Spares s.par.aBbreg1) s t :=
    fun hmem => (exec_effect h).mono fun _ => Spares.of_atRegisters hmem
  cases i with
  | tx | txraw | txres | poll | rdl | wrl => exact haway (by simp [touchedShort, *])
  | rds addr => cases h; exact (Effect.memRead s _ (fun _ => Spares.rd _ _ _)).putResult _ _ _ _
  | wrs addr data => exact haway (by simpa [touchedShort, shortAddr] using (hwrs addr data rfl).symm)
  | rxwhole dst cap =>
    rw [exec_rxwhole_of_open dst cap hs] at h
    cases h
    exact (Effect.refl _ s).putResult _ _ _ _
  | rxchunkAbort first dst cap => cases h; cases ht
  | rxchunkFirst dst cap =>
    rw [exec_rxchunkFirst_of_open dst cap hs] at h
    cases h
    exact (Effect.refl _ s).putResult _ _ _ _
  | rxchunkNext dst cap =>
    rw [exec_rxchunkNext_of_open dst cap hs] at h
    cases h
    exact Effect.drain_of_open hs ht

/-- A command that spares the register with WRS keeps reception disabled while a session is open. -/
theorem exec_keeps_receptionHeld {i : Instr} {s t : State} (h : exec i s = .next t) (hd : DistinctRegisters s.par)
    (hwrs : ∀ addr data, i = .wrs addr data → shortAddr addr ≠ s.par.aBbreg1) (hs : s.ReceptionHeld) : t.ReceptionHeld := by
  rw [State.receptionHeld_iff] at hs ⊢
  intro ht
  cases hopen : s.sessOpen with
  | true => exact (exec_spares_of_open h hd hwrs hopen ht).receptionDisabled (hs hopen)
  | false =>
    rcases exec_session_cases h with ⟨hsame, -⟩ | ⟨_, _, _, -, hclosed, -⟩ | ⟨dst, cap, -, -, rfl⟩ | ⟨dst, cap, -, hopen', -⟩
    · simp [hsame, hopen] at ht
    · simp [hclosed] at ht
    · exact State.openSession_receptionDisabled ht
    · simp [hopen] at hopen'

theorem State.ReceptionHeld.congr {s t : State} (h : s.ReceptionHeld) (hp : t.par = s.par) (ht : t.trace = s.trace)
    (ho : t.sessOpen = s.sessOpen) : t.ReceptionHeld := by
  unfold State.ReceptionHeld at h ⊢
  rwa [hp, ht, ho]

/-- An access of the host either runs the command whose word it writes to `CMD` (R28), or leaves the bus and the session alone. -/
theorem hostAccess_exec_or_frame {a : HostAct} {s t : State} (h : hostAccess a s = .next t) :
    (∃ w i, a = .write offCmd w ∧ decode w = .ok i ∧ exec i { s with busy := true } = .next t) ∨
    (t.par = s.par ∧ t.trace = s.trace ∧ t.sessOpen = s.sessOpen) := by
  cases a with
  | read off =>
    obtain ⟨d, f, rfl⟩ := hostRead_inv h
    exact .inr ⟨rfl, rfl, rfl⟩
  | write off v =>
    rcases hostWrite_inv h with ⟨rfl, hstart⟩ | ⟨i, rfl⟩ | rfl
    · rcases startCommand_inv hstart with ⟨i, hw, hexec⟩ | rfl
      · exact .inl ⟨v, i, rfl, hw, hexec⟩
      · exact .inr ⟨rfl, rfl, rfl⟩
    · exact .inr ⟨rfl, rfl, rfl⟩
    · exact .inr ⟨rfl, rfl, rfl⟩

/-- Settles O54: only RXCHUNK.FIRST opens a session, disabling reception first, and while a session stays open no command but a
WRS writes the receive-disable register. -/
theorem receptionStaysDisabledInASession : Obligations.ReceptionStaysDisabledInASession := by
  intro s t hd hspares hs h
  rcases step_cases h with ⟨rfl, -⟩ | ⟨a, rest, hcons, hacc⟩
  · exact hs
  · rcases hostAccess_exec_or_frame hacc with ⟨w, i, rfl, hw, hexec⟩ | ⟨hp, ht, ho⟩
    · refine exec_keeps_receptionHeld hexec hd (fun addr data hi => ?_) hs
      exact hspares w addr data (by rw [hcons, List.head?_cons]) (hi ▸ hw)
    · exact hs.congr hp ht ho

end Sys2Proof.Machine
end

section
/-! Non-interference of `SEQ` and of the trailer pair registers (R22, R26): states that differ in these registers only are `Alike`;
each operation takes alike states to alike states and reads the same bytes from the radio in both. -/
namespace Sys2Proof.Machine

/-- The state with other values in `SEQ` and in the trailer pair registers. -/
def State.relabel (s : State) (seq lqi rssi : Byte) : State := { s with seq := seq, sessLqi := lqi, sessRssi := rssi }

/-- `s'` is `s` but for `SEQ`, related by `Q`, and the trailer pair registers, related by `T`. -/
def State.Alike (Q T : Byte → Byte → Prop) (s s' : State) : Prop :=
  ∃ seq lqi rssi, s' = s.relabel seq lqi rssi ∧ Q s.seq seq ∧ T s.sessLqi lqi ∧ T s.sessRssi rssi

/-- Two outcomes of the same kind: the same stop, or next states related by `R`. -/
inductive OutRel (R : State → State → Prop) : Out → Out → Prop where
  | next {s s' : State} (h : R s s') : OutRel R (.next s) (.next s')
  | fault (r : Fault) : OutRel R (.fault r) (.fault r)
  | refused (r : Refusal) : OutRel R (.refused r) (.refused r)

/-- Related outcomes go on to the same outcome when related states do. -/
theorem OutRel.andThen_eq {R : State → State → Prop} {o o' : Out} (h : OutRel R o o') {f g : State → Out}
    (hfg : ∀ s s', R s s' → f s = g s') : andThen o f = andThen o' g := by
  cases h with
  | next hR => exact hfg _ _ hR
  | fault r => rfl
  | refused r => rfl

/-- What runs on in one outcome runs on in a related one. -/
theorem OutRel.of_next {R : State → State → Prop} {s : State} {o : Out} (h : OutRel R (.next s) o) : ∃ s', R s s' := by
  cases h with
  | next hR => exact ⟨_, hR⟩

/-- Going on with nothing more to do changes no outcome. -/
theorem andThen_next (o : Out) : andThen o .next = o := by cases o <;> rfl

namespace State.Alike
variable {Q T : Byte → Byte → Prop} {s s' t t' : State}

theorem par (h : s.Alike Q T s') : s'.par = s.par := by obtain ⟨q, l, r, rfl, -⟩ := h; rfl
theorem sessOpen (h : s.Alike Q T s') : s'.sessOpen = s.sessOpen := by obtain ⟨q, l, r, rfl, -⟩ := h; rfl
theorem sessRem (h : s.Alike Q T s') : s'.sessRem = s.sessRem := by obtain ⟨q, l, r, rfl, -⟩ := h; rfl
theorem busy (h : s.Alike Q T s') : s'.busy = s.busy := by obtain ⟨q, l, r, rfl, -⟩ := h; rfl
theorem host (h : s.Alike Q T s') : s'.host = s.host := by obtain ⟨q, l, r, rfl, -⟩ := h; rfl
theorem hbuf (h : s.Alike Q T s') : s'.hbuf = s.hbuf := by obtain ⟨q, l, r, rfl, -⟩ := h; rfl

theorem ite {c : Prop} [Decidable c] (h : s.Alike Q T s') (h' : t.Alike Q T t') :
    State.Alike Q T (if c then s else t) (if c then s' else t') := by
  split
  · exact h
  · exact h'

/-- An operation that takes no notice of `SEQ` and the trailer pair, and leaves them, keeps states alike. -/
theorem map (h : s.Alike Q T s') {f : State → State} (hf : ∀ q l r, f (s.relabel q l r) = (f s).relabel q l r)
    (hseq : (f s).seq = s.seq) (hlqi : (f s).sessLqi = s.sessLqi) (hrssi : (f s).sessRssi = s.sessRssi) :
    (f s).Alike Q T (f s') := by
  obtain ⟨q, l, r, rfl, hq, hl, hr⟩ := h
  exact ⟨q, l, r, hf q l r, hseq ▸ hq, hlqi ▸ hl, hrssi ▸ hr⟩

theorem setOpen (h : s.Alike Q T s') (b : Bool) : State.Alike Q T { s with sessOpen := b } { s' with sessOpen := b } :=
  h.map (f := fun s => { s with sessOpen := b }) (fun _ _ _ => rfl) rfl rfl rfl

theorem setRem (h : s.Alike Q T s') (rem : Byte) : State.Alike Q T { s with sessRem := rem } { s' with sessRem := rem } :=
  h.map (f := fun s => { s with sessRem := rem }) (fun _ _ _ => rfl) rfl rfl rfl

theorem setCur (h : s.Alike Q T s') (cur : BitVec 11) : State.Alike Q T { s with sessCur := cur } { s' with sessCur := cur } :=
  h.map (f := fun s => { s with sessCur := cur }) (fun _ _ _ => rfl) rfl rfl rfl

theorem setBusy (h : s.Alike Q T s') (b : Bool) : State.Alike Q T { s with busy := b } { s' with busy := b } :=
  h.map (f := fun s => { s with busy := b }) (fun _ _ _ => rfl) rfl rfl rfl

theorem setHost (h : s.Alike Q T s') (acts : List HostAct) : State.Alike Q T { s with host := acts } { s' with host := acts } :=
  h.map (f := fun s => { s with host := acts }) (fun _ _ _ => rfl) rfl rfl rfl

theorem setHostData (h : s.Alike Q T s') (w : Word) : State.Alike Q T { s with hostData := w } { s' with hostData := w } :=
  h.map (f := fun s => { s with hostData := w }) (fun _ _ _ => rfl) rfl rfl rfl

theorem setSeq (h : s.Alike Eq T s') (seq : Byte) : State.Alike Eq T { s with seq := seq } { s' with seq := seq } := by
  obtain ⟨q, l, r, rfl, -, htrailer⟩ := h
  exact ⟨seq, l, r, rfl, rfl, htrailer⟩

/-- Setting the trailer pair to the same values. -/
theorem setTrailer (h : s.Alike Q T s') (hT : ∀ b, T b b) (lqi rssi : Byte) :
    State.Alike Q T { s with sessLqi := lqi, sessRssi := rssi } { s' with sessLqi := lqi, sessRssi := rssi } := by
  obtain ⟨q, l, r, rfl, hq, -⟩ := h
  exact ⟨q, lqi, rssi, rfl, hq, hT _, hT _⟩

theorem putResult (h : s.Alike Q T s') (st : Status) (b0 b1 b2 : Byte) :
    (s.putResult st b0 b1 b2).Alike Q T (s'.putResult st b0 b1 b2) :=
  h.map (f := (·.putResult st b0 b1 b2)) (fun _ _ _ => rfl) rfl rfl rfl

theorem hbufWrite (h : s.Alike Q T s') (i : BitVec 9) (v : Byte) : (s.hbufWrite i v).Alike Q T (s'.hbufWrite i v) :=
  h.map (f := (·.hbufWrite i v)) (fun _ _ _ => rfl) rfl rfl rfl

theorem memWrite (h : s.Alike Q T s') (loc : BusAddr) (v : Byte) : (s.memWrite loc v).Alike Q T (s'.memWrite loc v) :=
  h.map (f := (·.memWrite loc v)) (fun _ _ _ => rfl) rfl rfl rfl

/-- The radio answers both states the same byte. -/
theorem memRead (h : s.Alike Q T s') (loc : BusAddr) :
    (s'.memRead loc).1 = (s.memRead loc).1 ∧ (s.memRead loc).2.Alike Q T (s'.memRead loc).2 := by
  obtain ⟨q, l, r, rfl, hrel⟩ := h
  exact ⟨rfl, q, l, r, rfl, hrel⟩

theorem readCursor (h : s.Alike Q T s') :
    s'.readCursor.1 = s.readCursor.1 ∧ s.readCursor.2.Alike Q T s'.readCursor.2 := by
  obtain ⟨q, l, r, rfl, hrel⟩ := h
  exact ⟨rfl, q, l, r, rfl, hrel⟩

/-! The bit steps (R120 to R126). -/

theorem rxDisable (h : s.Alike Q T s') : s.rxDisable.Alike Q T s'.rxDisable := h.map (fun _ _ _ => rfl) rfl rfl rfl
theorem rxFlush (h : s.Alike Q T s') : s.rxFlush.Alike Q T s'.rxFlush := h.map (fun _ _ _ => rfl) rfl rfl rfl
theorem rxEnable (h : s.Alike Q T s') : s.rxEnable.Alike Q T s'.rxEnable := h.map (fun _ _ _ => rfl) rfl rfl rfl
theorem txTrigger (h : s.Alike Q T s') : s.txTrigger.Alike Q T s'.txTrigger := h.map (fun _ _ _ => rfl) rfl rfl rfl
theorem txAckReq (h : s.Alike Q T s') : s.txAckReq.Alike Q T s'.txAckReq := h.map (fun _ _ _ => rfl) rfl rfl rfl

/-- `WriteBuf` (R127). -/
theorem writeBuf (h : s.Alike Q T s') (a : BitVec 11) (bs : List Byte) : (s.writeBuf a bs).Alike Q T (s'.writeBuf a bs) := by
  induction bs generalizing s s' a with
  | nil => exact h
  | cons v vs ih => exact ih (h.memWrite (.long a) v) (a + 1#11)

/-- `ReadBuf` (R128). -/
theorem readBuf (h : s.Alike Q T s') (a : BitVec 11) (d : BitVec 9) (n : Nat) :
    (s.readBuf a d n).Alike Q T (s'.readBuf a d n) := by
  induction n generalizing s s' a d with
  | zero => exact h
  | succ n ih =>
    obtain ⟨hv, hread⟩ := h.memRead (.long a)
    simp only [State.readBuf, hv]
    exact ih (hread.hbufWrite d _) (a + 1#11) (d + 1#9)

/-- The copy loop of `Drain` (R161). -/
theorem drainBytes (h : s.Alike Q T s') (p : BitVec 9) (n : Nat) : (s.drainBytes p n).Alike Q T (s'.drainBytes p n) := by
  induction n generalizing s s' p with
  | zero => exact h
  | succ n ih =>
    obtain ⟨hv, hread⟩ := h.readCursor
    simp only [State.drainBytes, hv]
    exact ih (hread.hbufWrite p _) (p + 1#9)

/-- `Finish` (R162) writes the trailer pair with what it reads. -/
theorem finish (h : s.Alike Q T s') (hT : ∀ b, T b b) : s.finish.Alike Q T s'.finish := by
  obtain ⟨hlqi, h1⟩ := h.readCursor
  obtain ⟨hrssi, h2⟩ := h1.readCursor
  unfold State.finish
  dsimp only
  rw [hlqi, hrssi]
  exact ((h2.setTrailer hT _ _).rxFlush.rxEnable.setOpen false).putResult _ _ _ _

/-- `Drain` (R161): it leaves the trailer pair as it is, or completes the session (R162). -/
theorem drain (h : s.Alike Q T s') (hT : ∀ b, T b b) (p : BitVec 9) (c : Nat) : (s.drain p c).Alike Q T (s'.drain p c) := by
  unfold State.drain
  dsimp only
  rw [h.sessRem]
  have hcopied := (h.drainBytes p (min s.sessRem.toNat c)).setRem (s.sessRem - BitVec.ofNat 8 (min s.sessRem.toNat c))
  exact ite (hcopied.finish hT) (hcopied.putResult _ _ _ _)

/-- Whole reception (R163). -/
theorem receiveWhole (h : s.Alike Q T s') (hT : ∀ b, T b b) (dst cap : BitVec 9) :
    (s.receiveWhole dst cap).Alike Q T (s'.receiveWhole dst cap) := by
  obtain ⟨hlen, h1⟩ := h.rxDisable.memRead (.long s.par.aRxfifo)
  unfold State.receiveWhole
  dsimp only
  rw [h.par, hlen]
  refine ite (h1.rxFlush.rxEnable.putResult _ _ _ _) ?_
  have h2 := (h1.hbufWrite dst (s.rxDisable.memRead (.long s.par.aRxfifo)).1).readBuf (s.par.aRxfifo + 1#11) (dst + 1#9)
    (s.rxDisable.memRead (.long s.par.aRxfifo)).1.toNat
  obtain ⟨hlqi, h3⟩ := h2.memRead (.long (s.par.aRxfifo + 1#11 + (s.rxDisable.memRead (.long s.par.aRxfifo)).1.setWidth 11))
  obtain ⟨hrssi, h4⟩ := h3.memRead (.long (s.par.aRxfifo + 2#11 + (s.rxDisable.memRead (.long s.par.aRxfifo)).1.setWidth 11))
  rw [hlqi, hrssi]
  exact (h4.setTrailer hT _ _).rxFlush.rxEnable.putResult _ _ _ _

/-- RXCHUNK.FIRST (R165). -/
theorem openSession (h : s.Alike Q T s') (hT : ∀ b, T b b) (dst cap : BitVec 9) :
    (s.openSession dst cap).Alike Q T (s'.openSession dst cap) := by
  obtain ⟨hlen, h1⟩ := (h.rxDisable.setCur s.par.aRxfifo).readCursor
  unfold State.openSession
  dsimp only
  rw [h.par, hlen]
  exact (((h1.setRem _).setOpen true).hbufWrite _ _).drain hT _ _

/-- TX writes the number in `SEQ` into the frame and counts it, so here `SEQ` must agree (R140). -/
theorem transmit (h : s.Alike Eq T s') (dest : BitVec 16) (plen : BitVec 8) (payload : List Byte) :
    (s.transmit dest plen payload).Alike Eq T (s'.transmit dest plen payload) := by
  obtain ⟨hsL, h1⟩ := h.memRead (.short s.par.aSadrl)
  obtain ⟨hsH, h2⟩ := h1.memRead (.short s.par.aSadrh)
  obtain ⟨hpL, h3⟩ := h2.memRead (.short s.par.aPanidl)
  obtain ⟨hpH, h4⟩ := h3.memRead (.short s.par.aPanidh)
  have hseq : s'.seq = s.seq := by obtain ⟨q, l, r, rfl, rfl, -⟩ := h; rfl
  unfold State.transmit
  dsimp only
  rw [h.par, hsL, hsH, hpL, hpH, hseq]
  exact ((h4.setSeq _).writeBuf _ _).txTrigger.putResult _ _ _ _

/-- TXRAW reads neither `SEQ` nor the trailer pair (R141). -/
theorem transmitRaw (h : s.Alike Q T s') (hlen flen : BitVec 8) (frame : List Byte) :
    (s.transmitRaw hlen flen frame).Alike Q T (s'.transmitRaw hlen flen frame) := by
  unfold State.transmitRaw
  dsimp only
  rw [h.par]
  exact (h.txAckReq.writeBuf _ _).txTrigger.putResult _ _ _ _

/-- A host read of an `HBUF` byte (R29). -/
theorem readHbuf (h : s.Alike Q T s') (i : BitVec 9) : (s.readHbuf i).Alike Q T (s'.readHbuf i) := by
  obtain ⟨q, l, r, rfl, hrel⟩ := h
  cases hbyte : s.hbuf.read i.toNat with
  | some b =>
    rw [State.readHbuf_of_some hbyte, State.readHbuf_of_some (s := s.relabel q l r) hbyte]
    exact ⟨q, l, r, rfl, hrel⟩
  | none =>
    rw [State.readHbuf_of_none hbyte, State.readHbuf_of_none (s := s.relabel q l r) hbyte]
    exact ⟨q, l, r, rfl, hrel⟩

/-- The host sees `SEQ` in `STAT` (R32), and the trailer pair nowhere. -/
theorem registerWord (h : s.Alike Eq T s') (off : BitVec 10) : s'.registerWord off = s.registerWord off := by
  obtain ⟨q, l, r, rfl, rfl, -⟩ := h
  rfl

end State.Alike

/-- Every command but TX answers alike from states that are alike: it does not read `SEQ` or the trailer pair. -/
theorem exec_alike_of_ne_tx {Q T : Byte → Byte → Prop} {s s' : State} (h : s.Alike Q T s') (hT : ∀ b, T b b) {i : Instr}
    (hi : ∀ dest plen, i ≠ .tx dest plen) : OutRel (State.Alike Q T) (exec i s) (exec i s') := by
  cases i with
  | tx dest plen => exact absurd rfl (hi dest plen)
  | txraw hlen flen =>
    simp only [exec, execTxraw, h.hbuf]
    split
    · exact .next (h.transmitRaw _ _ _)
    · exact .fault _
  | txres =>
    obtain ⟨hv, hread⟩ := h.memRead (.short s.par.aTxstat)
    simp only [exec, execTxres, h.par, hv]
    exact .next (hread.putResult _ _ _ _)
  | poll =>
    obtain ⟨hv, hread⟩ := h.memRead (.short s.par.aIntstat)
    simp only [exec, execPoll, h.par, hv]
    exact .next (hread.putResult _ _ _ _)
  | rds addr =>
    obtain ⟨hv, hread⟩ := h.memRead (.short (shortAddr addr))
    simp only [exec, execRds, hv]
    exact .next (hread.putResult _ _ _ _)
  | rdl addr =>
    obtain ⟨hv, hread⟩ := h.memRead (.long addr)
    simp only [exec, execRdl, hv]
    exact .next (hread.putResult _ _ _ _)
  | wrs addr data => exact .next ((h.memWrite _ _).putResult _ _ _ _)
  | wrl addr data => exact .next ((h.memWrite _ _).putResult _ _ _ _)
  | rxwhole dst cap =>
    simp only [exec, execRxwhole, h.sessOpen]
    exact .next (.ite (h.putResult _ _ _ _) (h.receiveWhole hT _ _))
  | rxchunkAbort first dst cap => exact .next ((h.rxFlush.rxEnable.setRem 0#8 |>.setOpen false).putResult _ _ _ _)
  | rxchunkFirst dst cap =>
    simp only [exec, execRxchunkFirst, h.sessOpen]
    exact .next (.ite (h.putResult _ _ _ _) (.ite (h.putResult _ _ _ _) (h.openSession hT _ _)))
  | rxchunkNext dst cap =>
    simp only [exec, execRxchunkNext, h.sessOpen]
    exact .next (.ite (h.drain hT _ _) (h.putResult _ _ _ _))

/-- Every command, TX too, answers alike from states that agree on `SEQ`. -/
theorem exec_alike {T : Byte → Byte → Prop} {s s' : State} (h : s.Alike Eq T s') (hT : ∀ b, T b b) (i : Instr) :
    OutRel (State.Alike Eq T) (exec i s) (exec i s') := by
  by_cases hi : ∃ dest plen, i = .tx dest plen
  · obtain ⟨dest, plen, rfl⟩ := hi
    simp only [exec, execTx, h.hbuf]
    split
    · exact .next (h.transmit _ _ _)
    · exact .fault _
  · exact exec_alike_of_ne_tx h hT fun dest plen he => hi ⟨dest, plen, he⟩

/-- Settles O32: TX counts `SEQ`; any other command answers alike from states that differ in `SEQ` only. -/
theorem onlyTxReadsOrWritesSeq : Obligations.OnlyTxReadsOrWritesSeq := by
  refine ⟨fun dest plen s t h => ?_, fun i s x hi => ?_⟩
  · simp only [exec, execTx] at h
    split at h <;> cases h
    exact (s.transmit_frame dest plen _).1
  · have halike : s.Alike (fun a b => a = s.seq ∧ b = x) Eq { s with seq := x } :=
      ⟨x, s.sessLqi, s.sessRssi, rfl, ⟨rfl, rfl⟩, rfl, rfl⟩
    have hout := exec_alike_of_ne_tx halike (fun _ => rfl) hi
    constructor
    · rw [← andThen_next (exec i { s with seq := x })]
      refine (hout.andThen_eq ?_).symm
      rintro t t' ⟨q, l, r, rfl, ⟨-, rfl⟩, rfl, rfl⟩
      rfl
    · intro t ht
      rw [ht] at hout
      obtain ⟨_, _, _, _, -, ⟨hseq, -⟩, -⟩ := hout.of_next
      exact hseq

/-- What the host sees does not depend on the trailer pair. -/
theorem hostAccess_alike {T : Byte → Byte → Prop} {s s' : State} (h : s.Alike Eq T s') (hT : ∀ b, T b b) (a : HostAct) :
    OutRel (State.Alike Eq T) (hostAccess a s) (hostAccess a s') := by
  cases a with
  | write off v =>
    simp only [hostAccess, hostWrite]
    split
    · simp only [startCommand, h.busy]
      split
      · exact .fault _
      · split
        · exact exec_alike (h.setBusy true) hT _
        · exact .next ((h.setBusy true).putResult _ _ _ _)
    · split
      · simp only [h.busy]
        split
        · exact .fault _
        · exact .next (h.hbufWrite _ _)
      · exact .next h
  | read off =>
    simp only [hostAccess, hostRead]
    split
    · simp only [h.busy]
      split
      · exact .fault _
      · exact .next (h.readHbuf _)
    · rw [h.registerWord]
      exact .next (h.setHostData _)

/-- A step answers alike from states that differ in the trailer pair only. -/
theorem step_alike {T : Byte → Byte → Prop} {s s' : State} (h : s.Alike Eq T s') (hT : ∀ b, T b b) :
    OutRel (State.Alike Eq T) (step s) (step s') := by
  unfold step
  rw [h.host]
  split
  · exact .next h
  · exact hostAccess_alike (h.setHost _) hT _

/-- Settles O57: the two steps are alike, and what is left to differ is hidden. -/
theorem trailerRegistersAreInvisible : Obligations.TrailerRegistersAreInvisible := by
  intro s x y
  have halike : s.Alike Eq (fun _ _ => True) { s with sessLqi := x, sessRssi := y } := ⟨s.seq, x, y, rfl, rfl, trivial, trivial⟩
  refine ((step_alike halike fun _ => trivial).andThen_eq ?_).symm
  rintro t t' ⟨q, l, r, rfl, rfl, -⟩
  rfl

end Sys2Proof.Machine
end

section
/-! The bus and the radios: what issuing transactions does, what each radio makes of a transaction and answers after it, where a
command's transactions are, and the oracle's trace; then the `HBUF` line of the assembler. -/
namespace Sys2Proof.Machine

/-! ## Issuing transactions (R57, R58, R65, R70) -/

@[simp] theorem Radio.observe_oracle (p : Params) (e : BusEvent) : Radio.oracle.observe p e = .oracle := rfl

@[simp] theorem Radio.observe_reference (m : Rrm) (p : Params) (e : BusEvent) :
    (Radio.reference m).observe p e = .reference (m.observe p e) := rfl

/-- A transaction does not change which of the two radios answers (log 6). -/
theorem Radio.observe_eq_oracle_iff {r : Radio} {p : Params} {e : BusEvent} : r.observe p e = .oracle ↔ r = .oracle := by
  cases r <;> simp

theorem State.radioAnswer_of_oracle {s : State} (h : s.radio = .oracle) (loc : BusAddr) :
    s.radioAnswer loc = Config.radioByte s.trace loc := by
  simp only [State.radioAnswer, h, Radio.answer]

theorem State.radioAnswer_of_reference {s : State} {m : Rrm} (h : s.radio = .reference m) (loc : BusAddr) :
    s.radioAnswer loc = m.answer loc := by
  simp only [State.radioAnswer, h, Radio.answer]

theorem State.issueAll_radio (s : State) (es : List BusEvent) :
    (s.issueAll es).radio = es.foldl (fun r e => r.observe s.par e) s.radio := by rw [State.issueAll_eq]

theorem State.issueAll_radio_of_oracle {s : State} (h : s.radio = .oracle) (es : List BusEvent) :
    (s.issueAll es).radio = .oracle := by
  rw [State.issueAll_radio, h]
  exact List.foldl_fixed' (Radio.observe_oracle s.par) es

theorem State.issueAll_radio_of_reference {s : State} {m : Rrm} (h : s.radio = .reference m) (es : List BusEvent) :
    (s.issueAll es).radio = .reference (es.foldl (fun m e => m.observe s.par e) m) := by
  rw [State.issueAll_radio, h]
  exact List.foldl_hom Radio.reference fun m e => Radio.observe_reference m s.par e

/-- Settles O18: issuing is a fold over the transactions, and a fold on either radio stays with that radio. -/
theorem issuingAppendsToTheTrace : Obligations.IssuingAppendsToTheTrace :=
  ⟨fun s es => ⟨s.issueAll_eq es, fun h => State.issueAll_radio_of_oracle h es,
      fun _ h => State.issueAll_radio_of_reference h es, s.issueAll_append es⟩,
    fun p e => ⟨Radio.observe_oracle p e, fun m => Radio.observe_reference m p e⟩,
    fun _ loc => ⟨fun h => State.radioAnswer_of_oracle h loc, fun _ h => State.radioAnswer_of_reference h loc⟩⟩

/-! ## The reference radio (R70, R71) -/

/-- The reference radio's answers after its short array was written; the counters are not read. -/
theorem Rrm.answer_writeZ_rs {m : Rrm} (h : m.rs.wfZ 64 = true) (a : BitVec 6) (b : Byte) (flushes transmissions : Nat)
    (loc : BusAddr) : ({ m with rs := m.rs.writeZ a.toNat b, flushes, transmissions } : Rrm).answer loc =
      if loc = .short a then b else m.answer loc := by
  cases loc with
  | short c => simp only [Rrm.answer, Memory.readZ_writeZ h, BitVec.toNat_inj, BusAddr.short.injEq]
  | long c => simp [Rrm.answer]

/-- The reference radio's answers after its long array was written. -/
theorem Rrm.answer_writeZ_rl {m : Rrm} (h : m.rl.wfZ 2048 = true) (a : BitVec 11) (b : Byte) (loc : BusAddr) :
    ({ m with rl := m.rl.writeZ a.toNat b } : Rrm).answer loc = if loc = .long a then b else m.answer loc := by
  cases loc with
  | short c => simp [Rrm.answer]
  | long c => simp only [Rrm.answer, Memory.readZ_writeZ h, BitVec.toNat_inj, BusAddr.long.injEq]

/-- A short read clears the interrupt status and nothing else (R71). -/
theorem Rrm.answer_observe_rd_short {m : Rrm} (h : m.rs.wfZ 64 = true) (p : Params) (a : BitVec 6) (v : Byte)
    (loc : BusAddr) : (m.observe p (.rd (.short a) v)).answer loc =
      if loc = .short a ∧ a = p.aIntstat then 0#8 else m.answer loc := by
  by_cases ha : a = p.aIntstat
  · subst ha
    simp only [Rrm.observe, if_true, Rrm.answer_writeZ_rs h, and_true]
  · simp only [Rrm.observe, ha, and_false, if_false]

/-- A read is not counted (R71). -/
theorem Rrm.counters_observe_rd_short (m : Rrm) (p : Params) (a : BitVec 6) (v : Byte) :
    (m.observe p (.rd (.short a) v)).flushes = m.flushes ∧
      (m.observe p (.rd (.short a) v)).transmissions = m.transmissions := by
  simp only [Rrm.observe]
  split <;> exact ⟨rfl, rfl⟩

/-- The byte a write of `v` leaves in the short register `a`: the flush and the trigger bit clear themselves (R71). -/
def keptByte (p : Params) (a : BitVec 6) (v : Byte) : Byte :=
  if a = p.aRxflush then byteClearBit v p.bRxflush else if a = p.aTxncon then byteClearBit v p.bTxntrig else v

/-- The flush and the trigger register are two registers (R6). -/
theorem DistinctRegisters.rxflush_ne_txncon {p : Params} (h : DistinctRegisters p) : p.aRxflush ≠ p.aTxncon := by
  obtain ⟨hnodup, -⟩ := h
  simp only [List.nodup_cons, List.mem_cons, not_or] at hnodup
  tauto

theorem countIf_eq_add (v : Byte) (b : Fin 8) (n : Nat) : countIf v b n = n + if v.getLsbD b = true then 1 else 0 := by
  simp only [countIf]
  split <;> rfl

/-- A short write in one equation: the byte kept, and each counter moved by its own register only (R70, R71). -/
theorem Rrm.observe_wr_short {p : Params} (hp : p.aRxflush ≠ p.aTxncon) (m : Rrm) (a : BitVec 6) (v : Byte) :
    m.observe p (.wr (.short a) v) = { m with
      rs := m.rs.writeZ a.toNat (keptByte p a v)
      flushes := m.flushes + (if a = p.aRxflush ∧ v.getLsbD p.bRxflush = true then 1 else 0)
      transmissions := m.transmissions + (if a = p.aTxncon ∧ v.getLsbD p.bTxntrig = true then 1 else 0) } := by
  by_cases hflush : a = p.aRxflush
  · subst hflush
    simp [Rrm.observe, keptByte, hp, countIf_eq_add]
  · by_cases htrig : a = p.aTxncon
    · subst htrig
      simp [Rrm.observe, keptByte, hflush, countIf_eq_add]
    · simp [Rrm.observe, keptByte, hflush, htrig]

/-- Settles O45: one equation for each kind of transaction, and the answers after a write of either array. -/
theorem referenceRadioKeepsItsArrays : Obligations.ReferenceRadioKeepsItsArrays := by
  intro p m hd hrs hrl
  refine ⟨fun _ _ => rfl, fun a v => ⟨Rrm.answer_observe_rd_short hrs p a v, m.counters_observe_rd_short p a v⟩,
    fun a v => ⟨Rrm.answer_writeZ_rl hrl a v, rfl, rfl⟩, fun a v => ?_⟩
  rw [Rrm.observe_wr_short hd.rxflush_ne_txncon]
  exact ⟨Rrm.answer_writeZ_rs hrs a (keptByte p a v) _ _, rfl, rfl⟩

/-! ## POLL after the interrupt status was read (R71, R191) -/

/-- No flag set is no event reported (R92). -/
theorem eventFlags_zero (p : Params) : eventFlags p 0#8 = 0#8 := by simp [eventFlags]

/-- A read of the interrupt status leaves the reference radio with none. -/
theorem State.radioAnswer_memRead_intstat {s : State} {m : Rrm} (h : s.radio = .reference m) (hrs : m.rs.wfZ 64 = true) :
    (s.memRead (.short s.par.aIntstat)).2.radioAnswer (.short s.par.aIntstat) = 0#8 := by
  have hradio : (s.memRead (.short s.par.aIntstat)).2.radio =
      .reference (m.observe s.par (.rd (.short s.par.aIntstat) (s.radioAnswer (.short s.par.aIntstat)))) := by
    rw [State.memRead_radio, h, Radio.observe_reference]
  rw [State.radioAnswer_of_reference hradio, Rrm.answer_observe_rd_short hrs, if_pos ⟨rfl, rfl⟩]

theorem exec_poll_eq (s : State) : exec .poll s = .next ((s.memRead (.short s.par.aIntstat)).2.putResult .ok
    (eventFlags s.par (s.radioAnswer (.short s.par.aIntstat))) 0#8 0#8) := rfl

theorem exec_rds_eq (addr : BitVec 11) (s : State) : exec (.rds addr) s =
    .next ((s.memRead (.short (shortAddr addr))).2.putResult .ok (s.radioAnswer (.short (shortAddr addr))) 0#8 0#8) := rfl

/-- A POLL that reads a byte with no flag set ends with `RESULT` 0. -/
theorem exec_poll_of_no_flags {s : State} (h : s.radioAnswer (.short s.par.aIntstat) = 0#8) :
    ∃ u, exec .poll s = .next u ∧ u.result = 0#32 := by
  refine ⟨_, exec_poll_eq s, ?_⟩
  rw [State.putResult_result, h, eventFlags_zero]
  rfl

/-- Settles O44: POLL and that RDS both end with one read of the interrupt status, which leaves it clear. -/
theorem secondPollReportsNothing : Obligations.SecondPollReportsNothing := by
  intro s t m i hradio hrs hi h
  have hread : ∃ b, t = (s.memRead (.short s.par.aIntstat)).2.putResult .ok b 0#8 0#8 := by
    rcases hi with rfl | ⟨addr, rfl, haddr⟩
    · rw [exec_poll_eq] at h
      cases h
      exact ⟨_, rfl⟩
    · rw [exec_rds_eq, show shortAddr addr = s.par.aIntstat from haddr] at h
      cases h
      exact ⟨_, rfl⟩
  obtain ⟨b, rfl⟩ := hread
  exact exec_poll_of_no_flags (State.radioAnswer_memRead_intstat hradio hrs)

/-! ## Where a command's transactions are (R64) -/

/-- What an effect appends to the trace meets its predicate. -/
theorem Effect.of_mem_drop {P : BusEvent → Prop} {s t : State} (h : Effect P s t) {e : BusEvent}
    (he : e ∈ t.trace.drop s.trace.length) : P e := by
  obtain ⟨es, -, ht, -, hP⟩ := h.events
  rw [ht, List.drop_left] at he
  exact hP e he

/-- Settles O47: a command is an effect at the registers of R64 and the long space. -/
theorem commandsTouchOnlyTheirRegisters : Obligations.CommandsTouchOnlyTheirRegisters :=
  fun _ _ _ _ h he => (exec_effect h).of_mem_drop he

/-! ## The oracle's trace (R57) -/

/-- The statement about the trace looks at the radio and the trace only. -/
theorem State.TraceInv.congr {s t : State} (h : s.TraceInv) (hr : t.radio = s.radio) (ht : t.trace = s.trace) :
    t.TraceInv := by
  unfold State.TraceInv
  rwa [hr, ht]

/-- One more transaction, a read of it with the radio's answer: the reads of the longer trace are those of the trace before it
and, if it is a read, itself. -/
theorem State.TraceInv.issue {s : State} (h : s.TraceInv) {e : BusEvent} (he : ∀ l v, e = .rd l v → v = s.radioAnswer l) :
    (s.issue e).TraceInv := by
  intro hradio before loc v after htrace
  rw [State.issue_radio, Radio.observe_eq_oracle_iff] at hradio
  rw [State.issue_trace] at htrace
  rcases List.eq_nil_or_concat after with rfl | ⟨after, last, rfl⟩
  · obtain ⟨rfl, hlast⟩ := List.append_inj' htrace rfl
    rw [← State.radioAnswer_of_oracle hradio]
    exact he loc v (List.singleton_inj.mp hlast)
  · rw [List.concat_eq_append, ← List.cons_append, ← List.append_assoc] at htrace
    exact h hradio before loc v after (List.append_inj' htrace rfl).1

/-- Transactions the radio answered, one after another. -/
theorem State.TraceInv.issueAll {s : State} (h : s.TraceInv) {es : List BusEvent} (ha : s.Answered es) :
    (s.issueAll es).TraceInv := by
  induction es generalizing s with
  | nil => exact h
  | cons e es ih =>
    cases e with
    | rd loc v =>
      obtain ⟨hv, ha⟩ := ha
      exact ih (h.issue fun _ _ he => by cases he; exact hv) ha
    | wr loc v => exact ih (h.issue fun _ _ he => nomatch he) ha

/-- Settles O49: a step only appends transactions that the radio answered. -/
theorem traceStaysAnsweredByTheOracle : Obligations.TraceStaysAnsweredByTheOracle := by
  intro s t hs h
  obtain ⟨es, ha, htrace, hradio, -⟩ := stepsOnlyExtendTheTrace s t h
  exact (hs.issueAll ha).congr hradio (htrace.trans (s.issueAll_trace es).symm)

/-! ## The `hbuf` line (R53, R110) -/

/-- The window offset of an `HBUF` index (R31). -/
theorem hbufOffset_eq (i : BitVec 9) : 1#1 ++ i = 0x200#10 + i.setWidth 10 := by
  have hi := i.isLt
  apply BitVec.eq_of_toNat_eq
  rw [BitVec.toNat_append, ← Nat.shiftLeft_add_eq_or_of_lt hi, Nat.shiftLeft_eq, BitVec.toNat_add, BitVec.toNat_setWidth,
    BitVec.toNat_ofNat, BitVec.toNat_ofNat]
  omega

/-- An index with bytes as the line's numbers fits the line (R104). -/
theorem assemble_hbuf (p : Params) (i : BitVec 9) (bs : List Byte) :
    assemble p (.hbuf i.toNat (bs.map BitVec.toNat)) = some (hbufWrites i (bs.map BitVec.toNat)) := by
  have hfits : (AsmLine.hbuf i.toNat (bs.map BitVec.toNat)).wellFormed = true := by
    simp only [AsmLine.wellFormed, fits, Bool.and_eq_true, decide_eq_true_eq, List.all_eq_true, List.forall_mem_map]
    exact ⟨i.isLt, fun b _ => b.isLt⟩
  rw [assemble, if_pos hfits, emit, BitVec.ofNat_toNat, BitVec.setWidth_eq]

theorem hbufWrites_length (i : BitVec 9) (ns : List Nat) : (hbufWrites i ns).length = ns.length := by
  induction ns generalizing i with
  | nil => rfl
  | cons n ns ih => simp only [hbufWrites, List.length_cons, ih]

/-- The write of byte `k`, at the index `k` further on, mod 512 (R53). -/
theorem hbufWrites_getElem? (i : BitVec 9) (ns : List Nat) (k : Nat) : (hbufWrites i ns)[k]? =
    ns[k]?.map fun n => HostAct.write (1#1 ++ (i + BitVec.ofNat 9 k)) (BitVec.ofNat 32 n) := by
  induction ns generalizing i k with
  | nil => rfl
  | cons n ns ih =>
    cases k with
    | zero => simp [hbufWrites]
    | succ k =>
      have hnext : i + 1#9 + BitVec.ofNat 9 k = i + BitVec.ofNat 9 (k + 1) := by
        rw [BitVec.add_assoc, ← BitVec.ofNat_add, Nat.add_comm 1]
      simp only [hbufWrites, List.getElem?_cons_succ, ih, hnext]

/-- Settles O17: the line assembles to `hbufWrites`, whose index moves on by one a byte. -/
theorem hbufLineWritesConsecutiveBytes : Obligations.HbufLineWritesConsecutiveBytes := by
  intro p i bs
  refine ⟨_, assemble_hbuf p i bs, by rw [hbufWrites_length, List.length_map], fun k => ?_⟩
  simp only [hbufWrites_getElem?, List.getElem?_map, Option.map_map, hbufOffset_eq, Function.comp_def, BitVec.ofNat_toNat]

end Sys2Proof.Machine
end

section
/-! The encodings: a legal word is the word of its command, illegal words, the result word, the framing bytes and the default
frame control. -/
namespace Sys2Proof.Machine

/-! ## A legal word is the word of its command (R82 to R86, R88, R89) -/

theorem checked_eq_ok_iff {ok : Bool} {i j : Instr} : checked ok i = .ok j ↔ ok = true ∧ i = j := by
  cases ok <;> simp [checked]

theorem fieldOp_of_toNat {w : Word} {n : Nat} (h : (fieldOp w).toNat = n) : fieldOp w = BitVec.ofNat 4 n := by
  rw [← h, BitVec.ofNat_toNat, BitVec.setWidth_eq]

/-- Format N with its reserved bits 0 is its opcode alone. -/
theorem encodeN_fields {w : Word} {op : BitVec 4} (hop : fieldOp w = op) (h : reservedN w = true) : encodeN op = w := by
  have hz : w.extractLsb' 4 28 = 0#28 := by simpa [reservedN] using h
  rw [encodeN, ← hop, ← hz]
  exact (word_eq_partsN w).symm

theorem encodeT_fields {w : Word} (hop : fieldOp w = 0x1#4) (h : reservedT w = true) :
    encodeT (fieldDest w) (fieldPlen w) = w := by
  have hfl : fieldFl w = 0#4 := by simpa [reservedT] using h
  rw [encodeT, ← hop, ← hfl]
  exact (word_eq_partsT w).symm

theorem encodeW_fields {w : Word} (hop : fieldOp w = 0x2#4) (h : reservedW w = true) :
    encodeW (fieldHlen w) (fieldFlen w) = w := by
  obtain ⟨hz, hfl⟩ : w.extractLsb' 24 8 = 0#8 ∧ fieldFl w = 0#4 := by simpa [reservedW] using h
  rw [encodeW, ← hop, ← hfl, ← hz]
  exact (word_eq_partsW w).symm

theorem encodeB_fields {w : Word} {op : BitVec 4} (hop : fieldOp w = op) (h : reservedBChunk w = true) :
    encodeB op (fieldAbort w) (fieldFirst w) (fieldDst w) (fieldCap w) = w := by
  obtain ⟨hhigh, hlow⟩ : w.extractLsb' 26 6 = 0#6 ∧ w.extractLsb' 6 2 = 0#2 := by simpa [reservedBChunk] using h
  rw [encodeB, ← hop, ← hhigh, ← hlow]
  exact (word_eq_partsB w).symm

theorem encodeA_fields {w : Word} {op : BitVec 4} (hop : fieldOp w = op) (h : reservedAWrite w = true) :
    encodeA op (fieldAddr w) (fieldData w) = w := by
  obtain ⟨hz, hfl⟩ : w.extractLsb' 19 5 = 0#5 ∧ fieldFl w = 0#4 := by simpa [reservedAWrite] using h
  rw [encodeA, ← hop, ← hz, ← hfl]
  exact (word_eq_partsA w).symm

/-- RXWHOLE's reserved bits are those of RXCHUNK together with `ABORT` and `FIRST` (R85). -/
theorem reservedBWhole_imp {w : Word} (h : reservedBWhole w = true) :
    reservedBChunk w = true ∧ fieldAbort w = false ∧ fieldFirst w = false := by
  have hm := reservedBWhole_iff.mp h
  have hhigh : w.extractLsb' 26 6 = 0#6 := part_of_masked hm (by decide)
  have hlow : w.extractLsb' 6 2 = 0#2 := part_of_masked hm (by decide)
  exact ⟨by simp [reservedBChunk, hhigh, hlow], getLsbD_of_masked hm (k := 5) (by decide),
    getLsbD_of_masked hm (k := 4) (by decide)⟩

/-- The reads' reserved bits are those of the writes together with `DATA` (R86). -/
theorem reservedARead_imp {w : Word} (h : reservedARead w = true) : reservedAWrite w = true ∧ fieldData w = 0#8 := by
  have hm := reservedARead_iff.mp h
  have hz : w.extractLsb' 19 5 = 0#5 := part_of_masked hm (by decide)
  have hfl : fieldFl w = 0#4 := part_of_masked hm (by decide)
  exact ⟨by simp [reservedAWrite, hfl, hz], part_of_masked hm (by decide)⟩

theorem encodeB_fields_whole {w : Word} {op : BitVec 4} (hop : fieldOp w = op) (h : reservedBWhole w = true) :
    encodeB op false false (fieldDst w) (fieldCap w) = w := by
  obtain ⟨hres, habort, hfirst⟩ := reservedBWhole_imp h
  simpa only [habort, hfirst] using encodeB_fields hop hres

theorem encodeA_fields_read {w : Word} {op : BitVec 4} (hop : fieldOp w = op) (h : reservedARead w = true) :
    encodeA op (fieldAddr w) 0#8 = w := by
  obtain ⟨hres, hdata⟩ := reservedARead_imp h
  simpa only [hdata] using encodeA_fields hop hres

/-- Whichever form `ABORT` and `FIRST` select (R89), its encoding puts the two bits back. -/
theorem encode_chunkForm (w : Word) :
    encode (chunkForm w) = encodeB 0x5#4 (fieldAbort w) (fieldFirst w) (fieldDst w) (fieldCap w) := by
  unfold chunkForm
  cases fieldAbort w
  · cases fieldFirst w <;> rfl
  · rfl

/-- What the decoder's check lets through encodes to `w` when it does so with the reserved bits 0. -/
theorem encode_of_checked {ok : Bool} {i j : Instr} {w : Word} (h : checked ok i = .ok j) (henc : ok = true → encode i = w) :
    encode j = w := by
  obtain ⟨hok, rfl⟩ := checked_eq_ok_iff.mp h
  exact henc hok

/-- Settles O10: opcode by opcode, the operands and the reserved zeros are all the bits of the word. -/
theorem encodeOfDecodeIsTheWord : Obligations.EncodeOfDecodeIsTheWord := by
  intro w i h
  unfold decode at h
  split at h
  next hop => exact encode_of_checked h (encodeT_fields (fieldOp_of_toNat hop))
  next hop => exact encode_of_checked h (encodeW_fields (fieldOp_of_toNat hop))
  next hop => exact encode_of_checked h (encodeN_fields (fieldOp_of_toNat hop))
  next hop => exact encode_of_checked h (encodeB_fields_whole (fieldOp_of_toNat hop))
  next hop => exact encode_of_checked h fun hres => (encode_chunkForm w).trans (encodeB_fields (fieldOp_of_toNat hop) hres)
  next hop => exact encode_of_checked h (encodeN_fields (fieldOp_of_toNat hop))
  next hop => exact encode_of_checked h (encodeA_fields_read (fieldOp_of_toNat hop))
  next hop => exact encode_of_checked h (encodeA_fields (fieldOp_of_toNat hop))
  next hop => exact encode_of_checked h (encodeA_fields_read (fieldOp_of_toNat hop))
  next hop => exact encode_of_checked h (encodeA_fields (fieldOp_of_toNat hop))
  next => cases h

/-! ## Illegal and legal words (R88, R201) -/

/-- Settles O8: an illegal word is one that decodes to no command, and `CMD` raises on exactly these. -/
theorem illegalWordsOnlyRaise : Obligations.IllegalWordsOnlyRaise := by
  refine ⟨fun w s hill hb => ?_, fun w hlegal => ?_⟩
  · obtain ⟨e, he⟩ := illegalWord_iff_decode_error.mp hill
    exact startCommand_of_error hb he
  · cases hw : decode w with
    | ok i => exact ⟨i, rfl, fun s hb => startCommand_of_ok hb hw⟩
    | error e => exact absurd (illegalWord_iff_decode_error.mpr ⟨e, hw⟩) hlegal

theorem decode_of_encode_eq {w : Word} {i : Instr} (h : encode i = w) : decode w = .ok i := h ▸ decode_encode i

/-- Settles O11: each word is the encoding of its command. -/
theorem wordsOfTheSpecDecode : Obligations.WordsOfTheSpecDecode := by
  refine ⟨?_, ?_, ?_, ?_, ?_, ?_, ?_, ?_, ?_, ?_, ?_, ?_⟩ <;> exact decode_of_encode_eq (by decide)

/-- A word with RXCHUNK's opcode and no reserved bit is the form that `ABORT` and `FIRST` select (R89). -/
theorem decode_rxchunk {w : Word} (hop : w.extractLsb' 0 4 = 0x5#4) (hres : w &&& 0xFC0000C0#32 = 0#32) :
    decode w = .ok (chunkForm w) := by
  have hop : (fieldOp w).toNat = 0x5 := congrArg BitVec.toNat hop
  simp [decode, hop, checked, reservedBChunk_iff.mpr hres]

theorem chunkForm_abort {w : Word} (h : fieldAbort w = true) :
    chunkForm w = .rxchunkAbort (fieldFirst w) (fieldDst w) (fieldCap w) := by
  simp [chunkForm, h]

theorem chunkForm_first {w : Word} (habort : fieldAbort w = false) (hfirst : fieldFirst w = true) :
    chunkForm w = .rxchunkFirst (fieldDst w) (fieldCap w) := by
  simp [chunkForm, habort, hfirst]

theorem chunkForm_next {w : Word} (habort : fieldAbort w = false) (hfirst : fieldFirst w = false) :
    chunkForm w = .rxchunkNext (fieldDst w) (fieldCap w) := by
  simp [chunkForm, habort, hfirst]

/-- Settles O12: the form is `chunkForm`'s, and the abort does not look at its operands. -/
theorem chunkFormIsSelectedByAbortThenFirst : Obligations.ChunkFormIsSelectedByAbortThenFirst := by
  refine ⟨fun w hop hres => ?_, fun _ _ _ _ _ _ _ => rfl⟩
  rw [decode_rxchunk hop hres]
  refine ⟨fun habort => ?_, fun habort hfirst => ?_, fun habort hfirst => ?_⟩
  · rw [chunkForm_abort habort]
    rfl
  · rw [chunkForm_first habort hfirst]
    rfl
  · rw [chunkForm_next habort hfirst]
    rfl

/-! ## The result word (R90, R91) -/

/-- Settles O22: the fields one by one, and the table of codes. -/
theorem resultWordHoldsStatusAndBytes : Obligations.ResultWordHoldsStatusAndBytes :=
  ⟨fun st b0 b1 b2 => ⟨resultWord_status st b0 b1 b2, resultWord_reserved st b0 b1 b2, resultWord_b0 st b0 b1 b2,
    resultWord_b1 st b0 b1 b2, resultWord_b2 st b0 b1 b2⟩, rfl, rfl, rfl, rfl, rfl, rfl, rfl, rfl⟩

theorem State.ResultInv.congr {s t : State} (h : s.ResultInv) (hr : t.result = s.result) : t.ResultInv := by
  unfold State.ResultInv
  rwa [hr]

/-- A result word has a code of R91 and its bits 7:4 clear. -/
theorem State.resultInv_of_resultWord {s : State} {st : Status} {b0 b1 b2 : Byte} (h : s.result = resultWord st b0 b1 b2) :
    s.ResultInv := by
  unfold State.ResultInv
  rw [h, resultWord_reserved, resultWord_status]
  exact ⟨rfl, statusCode_lt st⟩

theorem hostAccess_keeps_resultInv {a : HostAct} {s t : State} (h : hostAccess a s = .next t) (hs : s.ResultInv) :
    t.ResultInv := by
  rcases hostAccess_cases h with ⟨i, hexec, -⟩ | ⟨rfl, -⟩ | ⟨i, v, rfl, -⟩ | ⟨d, f, rfl⟩
  · obtain ⟨-, st, b0, b1, b2, hr⟩ := exec_result hexec
    exact State.resultInv_of_resultWord hr
  · exact State.resultInv_of_resultWord (st := .illegalCommand) (b0 := 0#8) (b1 := 0#8) (b2 := 0#8) rfl
  · exact hs.congr rfl
  · exact hs.congr rfl

/-- Settles O53: `RESULT` is written with result words only. -/
theorem resultNeverHoldsAReservedCode : Obligations.ResultNeverHoldsAReservedCode := by
  intro s t hs h
  rcases step_cases h with ⟨rfl, -⟩ | ⟨a, rest, -, hacc⟩
  · exact hs
  · exact hostAccess_keeps_resultInv hacc (hs.congr rfl)

/-! ## Framing (R94 to R99) -/

theorem shortFrame_bit7 (a : BitVec 6) (w : Bool) : (shortFrame a w).getLsbD 7 = false := by
  simp only [shortFrame, BitVec.getLsbD_append]
  simp

theorem shortFrame_addr (a : BitVec 6) (w : Bool) : (shortFrame a w).extractLsb' 1 6 = a := by
  simp (disch := decide) only [shortFrame, BitVec.extractLsb'_append_eq_of_le, BitVec.extractLsb'_append_eq_of_add_le]
  simp

theorem shortFrame_write (a : BitVec 6) (w : Bool) : (shortFrame a w).getLsbD 0 = w := by
  simp only [shortFrame, BitVec.getLsbD_append]
  simp

theorem longFrame0_bit7 (a : BitVec 11) : (longFrame0 a).getLsbD 7 = true := by
  simp only [longFrame0, BitVec.getLsbD_append]
  simp

theorem longFrame0_addr (a : BitVec 11) : (longFrame0 a).extractLsb' 0 7 = a.extractLsb' 3 7 := by
  simp (disch := decide) only [longFrame0, BitVec.extractLsb'_append_eq_of_add_le, BitVec.extractLsb'_eq_self]

theorem longFrame1_addrLow (a : BitVec 11) (w : Bool) : (longFrame1 a w).extractLsb' 5 3 = a.extractLsb' 0 3 := by
  simp (disch := decide) only [longFrame1, BitVec.extractLsb'_append_eq_of_le]
  simp

theorem longFrame1_addrHigh (a : BitVec 11) (w : Bool) : (longFrame1 a w).extractLsb' 3 1 = a.extractLsb' 10 1 := by
  simp (disch := decide) only [longFrame1, BitVec.extractLsb'_append_eq_of_le, BitVec.extractLsb'_append_eq_of_add_le]
  simp

theorem longFrame1_write (a : BitVec 11) (w : Bool) : (longFrame1 a w).getLsbD 4 = w := by
  simp only [longFrame1, BitVec.getLsbD_append]
  simp

theorem longFrame1_reserved (a : BitVec 11) (w : Bool) : (longFrame1 a w).extractLsb' 0 3 = 0#3 := by
  simp (disch := decide) only [longFrame1, BitVec.extractLsb'_append_eq_of_add_le, BitVec.extractLsb'_eq_self]

/-- The three parts in which the framing bytes carry a long address (R96). -/
theorem longAddr_parts (a : BitVec 11) : a.extractLsb' 10 1 ++ a.extractLsb' 3 7 ++ a.extractLsb' 0 3 = a := by
  apply BitVec.eq_of_getLsbD_eq
  intro i hi
  simp only [BitVec.getLsbD_append, BitVec.getLsbD_extractLsb']
  grind

/-- The short framing byte as the address shifted, masked and joined with the flag. -/
theorem shortFrame_eq (a : BitVec 6) (w : Bool) :
    shortFrame a w = ((a.setWidth 8 <<< 1) &&& 0x7E#8) ||| (BitVec.ofBool w).setWidth 8 := by
  apply BitVec.eq_of_getLsbD_eq
  intro i hi
  simp only [shortFrame, BitVec.getLsbD_append, BitVec.getLsbD_or, BitVec.getLsbD_and, BitVec.getLsbD_shiftLeft,
    BitVec.getLsbD_setWidth, BitVec.getLsbD_ofBool]
  interval_cases i <;> simp

/-- Settles O13: the fields of the three framing bytes. -/
theorem framingBytesHoldAddressAndFlag : Obligations.FramingBytesHoldAddressAndFlag := by
  refine ⟨fun a w => ⟨shortFrame_bit7 a w, shortFrame_addr a w, shortFrame_write a w, ?_⟩, fun a w =>
    ⟨longFrame0_bit7 a, longFrame0_addr a, longFrame1_addrLow a w, longFrame1_write a w, ?_, longFrame1_reserved a w⟩⟩
  · exact shortFrame_eq a w
  · simpa using congrArg (·.getLsbD 0) (longFrame1_addrHigh a w)

/-- Settles O14: `decodeFrame` tells the two framings apart by bit 7 and reads back every field (R98). -/
theorem framingDecodesBack : Obligations.FramingDecodesBack := by
  intro loc w rest
  cases loc with
  | short a =>
    simp only [frameBytes, decodeFrame, List.cons_append, List.nil_append, shortFrame_bit7, shortFrame_addr,
      shortFrame_write, if_true]
  | long a =>
    simp only [frameBytes, decodeFrame, List.cons_append, List.nil_append, longFrame0_bit7, longFrame0_addr,
      longFrame1_addrLow, longFrame1_addrHigh, longFrame1_write, longAddr_parts, Bool.true_eq_false, if_false]

/-- Settles O15: the calls of each kind of transaction, written out. -/
theorem transactionsMakeTheseTransportCalls : Obligations.TransactionsMakeTheseTransportCalls :=
  fun _ _ => ⟨fun _ => rfl, fun _ => rfl, fun _ => rfl, fun _ => rfl⟩

/-- Settles O30: the default bytes are constants of R6. -/
theorem frameControlIsThatOfASimpleDataFrame : Obligations.FrameControlIsThatOfASimpleDataFrame := by
  unfold Obligations.FrameControlIsThatOfASimpleDataFrame
  decide

end Sys2Proof.Machine
end

section
/-! The assembler: which lines it refuses, and the words it makes of the others. -/
namespace Sys2Proof.Machine

/-! ## Operands that fit their fields (R83 to R86, R104) -/

theorem fits_eq_false_iff {n v : Nat} : fits n v = false ↔ 2 ^ n ≤ v := by simp [fits]

/-- The number of a bit vector fits a field of its width. -/
@[simp] theorem fits_toNat {n : Nat} (x : BitVec n) : fits n x.toNat = true := decide_eq_true x.isLt

@[simp] theorem fits_one_toNat (b : Bool) : fits 1 b.toNat = true := by cases b <;> rfl

theorem assemble_eq_none_iff {p : Params} {l : AsmLine} : assemble p l = none ↔ l.wellFormed = false := by
  simp [assemble]

theorem assemble_eq_some {p : Params} {l : AsmLine} {acts : List HostAct} (hfits : l.wellFormed = true)
    (h : emit p l = acts) : assemble p l = some acts := by
  rw [assemble, if_pos hfits, h]

/-! ## The words of the lines (R104, R105, R110) -/

/-- `ABORT` and `FIRST` as one two-bit field of format B (R85). -/
theorem encodeB_flags (op : BitVec 4) (abort first : Bool) (dst cap : BitVec 9) : encodeB op abort first dst cap =
    0#6 ++ cap ++ dst ++ 0#2 ++ (BitVec.ofBool abort ++ BitVec.ofBool first) ++ op := by
  rw [encodeB, BitVec.append_assoc (x₁ := 0#6 ++ cap ++ dst ++ 0#2)]
  rfl

/-- `wrs` at a short register: the 5 high bits of `ADDR` join the reserved zeros (R51, R110). -/
theorem wrsWord_eq (a : BitVec 6) (v : BitVec 8) : wrsWord a v = v ++ 0#10 ++ a ++ 0x0#4 ++ 0x9#4 := by
  have haddr : a.setWidth 11 = 0#5 ++ a := BitVec.setWidth_eq_append (by decide)
  have hzeros : v ++ 0#5 ++ (0#5 ++ a) = v ++ 0#10 ++ a := by
    rw [BitVec.append_assoc', BitVec.append_assoc (x₁ := v), BitVec.zero_append_zero]
    rfl
  rw [wrsWord, encode, encodeA, haddr, hzeros]

theorem highByte_eq (x : BitVec 16) : BitVec.ofNat 8 (x.toNat / 256) = x.extractLsb' 8 8 := by
  rw [BitVec.extractLsb', Nat.shiftRight_eq_div_pow]

theorem lowByte_eq (x : BitVec 16) : BitVec.ofNat 8 x.toNat = x.extractLsb' 0 8 := rfl

@[simp] theorem beq_one_toNat (b : Bool) : (b.toNat == 1) = b := by cases b <;> rfl

/-- The two `wrs` commands that set a 16-bit pair of short registers, high byte first (R110). -/
theorem cmdWrite_wrsPair (high low : BitVec 6) (x : BitVec 16) :
    [cmdWrite (wrsWord high (.ofNat 8 (x.toNat / 256))), cmdWrite (wrsWord low (.ofNat 8 x.toNat))] =
      [.write 0x000#10 (x.extractLsb' 8 8 ++ 0#10 ++ high ++ 0x0#4 ++ 0x9#4),
       .write 0x000#10 (x.extractLsb' 0 8 ++ 0#10 ++ low ++ 0x0#4 ++ 0x9#4)] := by
  rw [highByte_eq, lowByte_eq, wrsWord_eq, wrsWord_eq]
  rfl

/-- Settles O16: a line is refused when one of its operands is past its field's bound, and an operand that is a bit vector of its
field's width fits and goes into the word unchanged. -/
theorem assemblerMakesTheWordsOfTheTable : Obligations.AssemblerMakesTheWordsOfTheTable := by
  refine ⟨fun p l => assemble_eq_none_iff, fun p a b f x bs => ?bounds,
    fun p dest plen hlen flen data dst cap addr first abort w => ?words⟩
  case bounds =>
    simp only [assemble_eq_none_iff, AsmLine.wellFormed, Bool.and_eq_false_iff, fits_eq_false_iff, List.all_eq_false,
      Bool.not_eq_true, or_assoc, Nat.reducePow, and_self]
  case words =>
    intro cmd
    refine ⟨?tx, ?txraw, ?txres, ?rxwhole, ?chunkFirst, ?chunkNext, ?chunkAbort, ?poll, ?rds, ?wrs, ?rdl, ?wrl, ?rxchunk,
      ?chunkAbortOps, ?word, ?setpan, ?setsaddr⟩
    all_goals refine assemble_eq_some (by simp [AsmLine.wellFormed]) ?_
    case setpan => exact cmdWrite_wrsPair p.aPanidh p.aPanidl dest
    case setsaddr => exact cmdWrite_wrsPair p.aSadrh p.aSadrl dest
    case rxchunk =>
      simp only [emit, encodeB, beq_one_toNat, BitVec.ofNat_toNat, BitVec.setWidth_eq]
      rfl
    all_goals
      simp only [emit, encode, encodeB_flags, BitVec.ofNat_toNat, BitVec.setWidth_eq]
      rfl

end Sys2Proof.Machine
end

section
/-! The bus access: the bit steps and buffer loops as lists of transactions, then the four register-access commands, each with
its words and its one exception. -/
namespace Sys2Proof.Machine

/-! ## Transactions at consecutive long addresses (R53, R127, R128) -/

/-- A list of transactions that moves on by one address a byte has byte `k` at the address `k` further on, mod 2048. -/
theorem getElem?_of_consecutive {events : BitVec 11 → List Byte → List BusEvent} {event : BitVec 11 → Byte → BusEvent}
    (hnil : ∀ a, events a [] = []) (hcons : ∀ a v vs, events a (v :: vs) = event a v :: events (a + 1#11) vs)
    (a : BitVec 11) (bs : List Byte) (k : Nat) : (events a bs)[k]? = bs[k]?.map (event (a + BitVec.ofNat 11 k)) := by
  induction bs generalizing a k with
  | nil => simp [hnil]
  | cons v vs ih =>
    cases k with
    | zero => simp [hcons]
    | succ k =>
      have hnext : a + 1#11 + BitVec.ofNat 11 k = a + BitVec.ofNat 11 (k + 1) := by
        rw [BitVec.add_assoc, ← BitVec.ofNat_add, Nat.add_comm 1]
      simp only [hcons, List.getElem?_cons_succ, ih, hnext]

theorem writeEvents_getElem? (a : BitVec 11) (bs : List Byte) (k : Nat) :
    (writeEvents a bs)[k]? = bs[k]?.map (BusEvent.wr (.long (a + BitVec.ofNat 11 k))) :=
  getElem?_of_consecutive (event := fun a => .wr (.long a)) (fun _ => rfl) (fun _ _ _ => rfl) a bs k

theorem readEvents_getElem? (a : BitVec 11) (bs : List Byte) (k : Nat) :
    (readEvents a bs)[k]? = bs[k]?.map (BusEvent.rd (.long (a + BitVec.ofNat 11 k))) :=
  getElem?_of_consecutive (event := fun a => .rd (.long a)) (fun _ => rfl) (fun _ _ _ => rfl) a bs k

/-- Settles O21: the loop's transactions are `readEvents` of the answers, and its `HBUF` is the one before overlaid with them. -/
theorem readBufLaysAnswersIntoTheBuffer : Obligations.ReadBufLaysAnswersIntoTheBuffer := by
  intro s a d n hn
  obtain ⟨bs, m, hlen, hanswered, hread, hbuf⟩ := State.readBuf_spec n hn s a d
  exact ⟨bs, m, hlen, readEvents_getElem? a bs, hanswered, hread, hbuf⟩

/-- Settles O19: `setBitEvents` and `clearBitEvents` are the two transactions, and each named step is a bit step by definition. -/
theorem bitStepsAreReadThenWrite : Obligations.BitStepsAreReadThenWrite :=
  fun s a b => ⟨s.setBit_eq a b, s.clearBit_eq a b, rfl, rfl, rfl, rfl, rfl⟩

/-- Settles O20: the loop's transactions are `writeEvents`, one a byte, whose address moves on by one. -/
theorem writeBufIssuesConsecutiveWrites : Obligations.WriteBufIssuesConsecutiveWrites :=
  fun s a bs => ⟨s.writeBuf_eq a bs, writeEvents_length a bs, writeEvents_getElem? a bs⟩

/-! ## Rows of the opcode table (R86, R88, R201) -/

/-- The reserved bits of an opcode are those of its mask: a word with one of them set is illegal, and `CMD` raises on it. -/
theorem reservedBitsRaise_of_mask {op : BitVec 4} {m : Word} (h : reservedMask op.toNat = some m) :
    ReservedBitsRaise op m := by
  intro w s hop hw hb
  have hmask : reservedMask (fieldOp w).toNat = some m := by rw [fieldOp, hop, h]
  obtain ⟨e, he⟩ := illegalWord_iff_decode_error.mp ((illegalWord_iff_of_mask hmask).mpr hw)
  exact startCommand_of_error hb he

/-- A row fixes the bits of every smaller mask. -/
theorem and_submask {w mask value m : Word} (h : w &&& mask = value) (hm : mask &&& m = m) : w &&& m = value &&& m := by
  rw [← h, BitVec.and_assoc, hm]

/-- The opcode of a word of a row is the opcode of the row's value. -/
theorem fieldOp_of_masked {w mask value : Word} (h : w &&& mask = value) (hm : mask.extractLsb' 0 4 = 0xF#4) :
    fieldOp w = fieldOp value := part_of_masked h hm

/-- The row of a format A read: `ADDR` alone is free (R86). -/
theorem encodes_aRead {op : BitVec 4} {i : BitVec 11 → Instr} (hi : ∀ addr, encode (i addr) = encodeA op addr 0#8) :
    Encodes 0xFFF800FF#32 (encodeA op 0#11 0#8) (fun w => i (w.extractLsb' 8 11)) := by
  intro w h
  have hop : fieldOp w = op := (fieldOp_of_masked h (by decide)).trans (fieldOp_encodeA op 0#11 0#8)
  have hres : w &&& 0xFFF800F0#32 = 0#32 :=
    (and_submask h (by decide)).trans (reservedARead_iff.mp (reservedARead_encodeA op 0#11))
  exact decode_of_encode_eq ((hi _).trans (encodeA_fields_read hop (reservedARead_iff.mpr hres)))

/-- The row of a format A write: `ADDR` and `DATA` are free (R86). -/
theorem encodes_aWrite {op : BitVec 4} {i : BitVec 11 → BitVec 8 → Instr}
    (hi : ∀ addr data, encode (i addr data) = encodeA op addr data) :
    Encodes 0x00F800FF#32 (encodeA op 0#11 0#8) (fun w => i (w.extractLsb' 8 11) (w.extractLsb' 24 8)) := by
  intro w h
  have hop : fieldOp w = op := (fieldOp_of_masked h (by decide)).trans (fieldOp_encodeA op 0#11 0#8)
  have hres : w &&& 0x00F800F0#32 = 0#32 :=
    (and_submask h (by decide)).trans (reservedAWrite_iff.mp (reservedAWrite_encodeA op 0#11 0#8))
  exact decode_of_encode_eq ((hi _ _).trans (encodeA_fields hop (reservedAWrite_iff.mpr hres)))

/-! ## Register access (R129 to R132) -/

/-- The result word as four bytes, the low one the status code under four zeros (R90). -/
theorem resultWord_eq_bytes (st : Status) (b0 b1 b2 : Byte) :
    resultWord st b0 b1 b2 = b2 ++ b1 ++ b0 ++ (0#4 ++ statusCode st) := by
  rw [resultWord, BitVec.append_assoc (x₁ := b2 ++ b1 ++ b0)]
  rfl

/-- A command that reads one location and returns the answer (R129, R131): the whole state it ends in. -/
theorem State.memRead_putResult_ok (s : State) (loc : BusAddr) :
    (s.memRead loc).2.putResult .ok (s.memRead loc).1 0#8 0#8 = { s.issueAll [.rd loc (s.radioAnswer loc)] with
      result := 0#8 ++ 0#8 ++ s.radioAnswer loc ++ 0x00#8, busy := false } := by
  rw [State.putResult, resultWord_eq_bytes]
  rfl

/-- A command that writes one location (R130, R132): the whole state it ends in. -/
theorem State.memWrite_putResult_ok (s : State) (loc : BusAddr) (v : Byte) :
    (s.memWrite loc v).putResult .ok 0#8 0#8 0#8 =
      { s.issueAll [.wr loc v] with result := 0#32, busy := false } := rfl

/-- Settles O23: RDS reads one location, in the row of a format A read. -/
theorem rdsReadsOneShortRegister : Obligations.RdsReadsOneShortRegister :=
  ⟨fun addr s => congrArg Host.Outcome.next (s.memRead_putResult_ok (.short (shortAddr addr))),
    encodes_aRead (i := .rds) fun _ => rfl, reservedBitsRaise_of_mask rfl⟩

/-- Settles O24: WRS writes one location, in the row of a format A write. -/
theorem wrsWritesOneShortRegister : Obligations.WrsWritesOneShortRegister :=
  ⟨fun addr data s => congrArg Host.Outcome.next (s.memWrite_putResult_ok (.short (shortAddr addr)) data),
    encodes_aWrite (i := .wrs) fun _ _ => rfl, reservedBitsRaise_of_mask rfl⟩

/-- Settles O25: RDL reads one location, in the row of a format A read. -/
theorem rdlReadsOneLongRegister : Obligations.RdlReadsOneLongRegister :=
  ⟨fun addr s => congrArg Host.Outcome.next (s.memRead_putResult_ok (.long addr)),
    encodes_aRead (i := .rdl) fun _ => rfl, reservedBitsRaise_of_mask rfl⟩

/-- Settles O26: WRL writes one location, in the row of a format A write. -/
theorem wrlWritesOneLongRegister : Obligations.WrlWritesOneLongRegister :=
  ⟨fun addr data s => congrArg Host.Outcome.next (s.memWrite_putResult_ok (.long addr) data),
    encodes_aWrite (i := .wrl) fun _ _ => rfl, reservedBitsRaise_of_mask rfl⟩

end Sys2Proof.Machine
end

section
/-! The transmit commands: the transactions of TX and TXRAW as one list each, the classification of TXRES, and the sequence
law. -/
namespace Sys2Proof.Machine

/-! ## Rows of the opcode table whose operands fill every bit that is not reserved (R82 to R84) -/

/-- A row that fixes `OP` and the reserved bits encodes `i` when `i` puts the opcode, the reserved zeros and its operands back. -/
theorem encodes_of_encode_eq {mask value reserved : Word} {i : Word → Instr} (hop : mask.extractLsb' 0 4 = 0xF#4)
    (hmask : mask &&& reserved = reserved) (hvalue : value &&& reserved = 0#32)
    (henc : ∀ w, fieldOp w = fieldOp value → w &&& reserved = 0#32 → encode (i w) = w) : Encodes mask value i :=
  fun w h => decode_of_encode_eq (henc w (fieldOp_of_masked h hop) ((and_submask h hmask).trans hvalue))

/-! ## The bytes a transmit command takes from `HBUF` (R83, R84, R220) -/

/-- The bytes from index 0 on: a length byte cannot reach the end of `HBUF`, so no index wraps. -/
theorem hbufSlice_of_reads {m : Memory} {n : BitVec 8} {bs : List Byte} (hlen : bs.length = n.toNat)
    (hread : ∀ k, k < n.toNat → m.read k = bs[k]?) : hbufSlice m 0#9 n.toNat = some bs := by
  refine hbufSlice_eq_some.mpr ⟨hlen, fun k hk => ?_⟩
  have hindex : (0#9 + BitVec.ofNat 9 k).toNat = k := by
    rw [BitVec.zero_add, BitVec.toNat_ofNat, Nat.mod_eq_of_lt (by omega)]
  rw [hindex, hread k hk]

/-- TX runs exactly when its payload has been written, and it transmits that payload. -/
theorem exec_tx_eq_next_iff {dest : BitVec 16} {plen : BitVec 8} {s t : State} : exec (.tx dest plen) s = .next t ↔
    ∃ payload, hbufSlice s.hbuf 0#9 plen.toNat = some payload ∧ s.transmit dest plen payload = t := by
  simp only [exec, execTx]
  split <;> simp [*]

/-- TXRAW runs exactly when its frame has been written, and it transmits that frame. -/
theorem exec_txraw_eq_next_iff {hlen flen : BitVec 8} {s t : State} : exec (.txraw hlen flen) s = .next t ↔
    ∃ frame, hbufSlice s.hbuf 0#9 flen.toNat = some frame ∧ s.transmitRaw hlen flen frame = t := by
  simp only [exec, execTxraw]
  split <;> simp [*]

/-! ## The transactions of a transmission (R125 to R127, R140, R141) -/

/-- Both commands end their bus access alike: the FIFO image is written and the transmission triggered. -/
theorem State.writeBuf_txTrigger {s : State} {p : Params} (hp : s.par = p) (a : BitVec 11) (image : List Byte) :
    ∃ t, s.Answered (writeEvents a image ++ setBitEvents p.aTxncon p.bTxntrig t) ∧
      (s.writeBuf a image).txTrigger = s.issueAll (writeEvents a image ++ setBitEvents p.aTxncon p.bTxntrig t) := by
  subst hp
  refine ⟨(s.issueAll (writeEvents a image)).radioAnswer (.short s.par.aTxncon),
    State.Answered_append.mpr ⟨s.Answered_writeEvents a image, State.Answered_setBitEvents _ _ _⟩, ?_⟩
  rw [State.txTrigger, State.writeBuf_eq, State.setBit_eq, State.issueAll_append, State.issueAll_par]

/-- The four identity reads of TX (R140), low byte before high byte. -/
def identityEvents (p : Params) (sL sH pL pH : Byte) : List BusEvent :=
  [.rd (.short p.aSadrl) sL, .rd (.short p.aSadrh) sH, .rd (.short p.aPanidl) pL, .rd (.short p.aPanidh) pH]

/-- What TX writes from `A_TXNFIFO` on (R140): the two prefix bytes, the synthesised header and the payload. -/
def txImage (p : Params) (seq : Byte) (dest : BitVec 16) (plen : BitVec 8) (payload : List Byte) (sL sH pL pH : Byte) :
    List Byte :=
  [9#8, 9#8 + plen] ++ macHeader p seq pL pH dest sL sH ++ payload

/-- The transactions of TX (R140) when the identity registers read `sL`, `sH`, `pL`, `pH` and the control register reads `t`. -/
def txEvents (p : Params) (seq : Byte) (dest : BitVec 16) (plen : BitVec 8) (payload : List Byte) (sL sH pL pH t : Byte) :
    List BusEvent :=
  identityEvents p sL sH pL pH ++ writeEvents p.aTxnfifo (txImage p seq dest plen payload sL sH pL pH) ++
    setBitEvents p.aTxncon p.bTxntrig t

/-- The transactions of TXRAW (R141) when the control register reads `a` at the ack request and `t` at the trigger. -/
def txrawEvents (p : Params) (hlen flen : BitVec 8) (frame : List Byte) (a t : Byte) : List BusEvent :=
  setBitEvents p.aTxncon p.bTxnackreq a ++ writeEvents p.aTxnfifo ([hlen, flen] ++ frame) ++
    setBitEvents p.aTxncon p.bTxntrig t

section
variable (p : Params) (seq : Byte) (dest : BitVec 16) (plen hlen flen : BitVec 8) (bs : List Byte) (sL sH pL pH a t : Byte)

theorem txImage_length : (txImage p seq dest plen bs sL sH pL pH).length = 11 + bs.length := by
  simp [txImage, macHeader]
  omega

/-- The sequence number is byte 2 of the header, behind the two prefix bytes (R101). -/
theorem txImage_seq : (txImage p seq dest plen bs sL sH pL pH)[4]? = some seq := rfl

/-- Four identity reads, the writes of the image and the two transactions of the trigger. -/
theorem txEvents_length : (txEvents p seq dest plen bs sL sH pL pH t).length = 17 + bs.length := by
  simp only [txEvents, identityEvents, setBitEvents, List.length_append, writeEvents_length, txImage_length, List.length_cons,
    List.length_nil]
  omega

/-- Two for the ack request, two prefix bytes, the frame and the two of the trigger. -/
theorem txrawEvents_length : (txrawEvents p hlen flen bs a t).length = 6 + bs.length := by
  simp [txrawEvents, setBitEvents]
  omega

/-- The sequence number stands at FIFO offset 4: the write of it follows four reads and four writes (R143). -/
theorem txEvents_seq :
    (txEvents p seq dest plen bs sL sH pL pH t)[8]? = some (.wr (.long (p.aTxnfifo + 4#11)) seq) := by
  have hwrite : (writeEvents p.aTxnfifo (txImage p seq dest plen bs sL sH pL pH))[4]? =
      some (.wr (.long (p.aTxnfifo + 4#11)) seq) := by
    rw [writeEvents_getElem?, txImage_seq]
    rfl
  rw [txEvents, List.getElem?_append_left (by simp [identityEvents, txImage_length]; omega)]
  exact hwrite

end

theorem State.Answered_setSeq {s : State} {seq : Byte} {es : List BusEvent} :
    State.Answered { s with seq := seq } es ↔ s.Answered es := by
  constructor <;> refine fun h => State.Answered.congr ?_ ?_ ?_ h <;> rfl

/-- `SEQ` is not seen by the bus: it may be counted before the transactions or after them. -/
theorem State.issueAll_setSeq (s : State) (seq : Byte) (es : List BusEvent) :
    State.issueAll { s with seq := seq } es = { s.issueAll es with seq := seq } := by
  simp only [State.issueAll_eq]

/-- TX reads its identity, and what it does then is a FIFO image written and triggered (R140). -/
theorem State.transmit_eq (s : State) (dest : BitVec 16) (plen : BitVec 8) (payload : List Byte) :
    ∃ sL sH pL pH, s.Answered (identityEvents s.par sL sH pL pH) ∧ s.transmit dest plen payload =
      (State.writeBuf { s.issueAll (identityEvents s.par sL sH pL pH) with seq := s.seq + 1#8 } s.par.aTxnfifo
        (txImage s.par s.seq dest plen payload sL sH pL pH)).txTrigger.putResult .ok s.seq (9#8 + plen) 0#8 :=
  ⟨_, _, _, _, ⟨rfl, rfl, rfl, rfl, trivial⟩, rfl⟩

/-- TX with its payload known: the identity reads, the FIFO image, the trigger and the count of `SEQ` (R140). -/
theorem State.transmit_spec (s : State) (dest : BitVec 16) (plen : BitVec 8) (payload : List Byte) :
    ∃ sL sH pL pH t, s.Answered (txEvents s.par s.seq dest plen payload sL sH pL pH t) ∧
      s.transmit dest plen payload = { s.issueAll (txEvents s.par s.seq dest plen payload sL sH pL pH t) with
        seq := s.seq + 1#8, result := resultWord .ok s.seq (9#8 + plen) 0#8, busy := false } := by
  obtain ⟨sL, sH, pL, pH, hidentity, hstart⟩ := s.transmit_eq dest plen payload
  have hpar : ({ s.issueAll (identityEvents s.par sL sH pL pH) with seq := s.seq + 1#8 } : State).par = s.par :=
    State.issueAll_par ..
  obtain ⟨t, hanswered, hissued⟩ := State.writeBuf_txTrigger hpar s.par.aTxnfifo
    (txImage s.par s.seq dest plen payload sL sH pL pH)
  refine ⟨sL, sH, pL, pH, t, ?_, ?_⟩ <;> rw [txEvents, List.append_assoc]
  · exact State.Answered_append.mpr ⟨hidentity, State.Answered_setSeq.mp hanswered⟩
  · rw [hstart, hissued, State.issueAll_setSeq, ← State.issueAll_append]
    rfl

/-- TXRAW with its frame known: the ack request, the FIFO image and the trigger (R141). -/
theorem State.transmitRaw_spec (s : State) (hlen flen : BitVec 8) (frame : List Byte) :
    ∃ a t, s.Answered (txrawEvents s.par hlen flen frame a t) ∧ s.transmitRaw hlen flen frame =
      { s.issueAll (txrawEvents s.par hlen flen frame a t) with result := 0#32, busy := false } := by
  obtain ⟨t, hanswered, hissued⟩ := State.writeBuf_txTrigger (s := s.txAckReq) rfl s.par.aTxnfifo (hlen :: flen :: frame)
  exact ⟨s.radioAnswer (.short s.par.aTxncon), t, ⟨rfl, hanswered⟩,
    congrArg (·.putResult .ok 0#8 0#8 0#8) hissued⟩

/-- Settles O27: the payload in `HBUF` is what TX transmits, by `transmit_spec`. -/
theorem txTransmitsTheSynthesisedFrame : Obligations.TxTransmitsTheSynthesisedFrame := by
  refine ⟨fun dest plen payload s hlen hread => ?_, ?_, reservedBitsRaise_of_mask rfl⟩
  · obtain ⟨sL, sH, pL, pH, t, hanswered, hend⟩ := s.transmit_spec dest plen payload
    refine ⟨sL, sH, pL, pH, t, hanswered, hlen ▸ txEvents_length .., ?_⟩
    rw [exec_tx_eq_next_iff.mpr ⟨payload, hbufSlice_of_reads hlen hread, hend⟩, resultWord_eq_bytes]
    rfl
  · exact encodes_of_encode_eq (by decide) (by decide) (by decide) fun w hop hres =>
      encodeT_fields hop (reservedT_iff.mpr hres)

/-- Settles O28: the frame in `HBUF` is what TXRAW transmits, by `transmitRaw_spec`. -/
theorem txrawTransmitsTheHostsFrame : Obligations.TxrawTransmitsTheHostsFrame := by
  refine ⟨fun hlen flen frame s hlength hread => ?_, ?_, reservedBitsRaise_of_mask rfl⟩
  · obtain ⟨a, t, hanswered, hend⟩ := s.transmitRaw_spec hlen flen frame
    exact ⟨a, t, hanswered, hlength ▸ txrawEvents_length ..,
      exec_txraw_eq_next_iff.mpr ⟨frame, hbufSlice_of_reads hlength hread, hend⟩⟩
  · exact encodes_of_encode_eq (by decide) (by decide) (by decide) fun w hop hres =>
      encodeW_fields hop (reservedW_iff.mpr hres)

/-! ## The classification of a transmission (R142, R205) -/

theorem statusCode_txOutcome (p : Params) (v : Byte) : statusCode (txOutcome p v) =
    if v.getLsbD p.bTxnstat = false then 0#4 else if v.getLsbD p.bCcafail = true then 2#4 else 3#4 := by
  simp only [txOutcome, apply_ite statusCode]
  rfl

/-- Settles O29: one read, classified by its two bits, in the row of a format N command. -/
theorem txresClassifiesTheStatusByte : Obligations.TxresClassifiesTheStatusByte := by
  refine ⟨fun s => ?_, ?_, reservedBitsRaise_of_mask rfl⟩
  · dsimp only
    rw [← statusCode_txOutcome]
    rfl
  · exact encodes_of_encode_eq (by decide) (by decide) (by decide) fun w hop hres =>
      encodeN_fields hop (reservedN_iff.mpr hres)

/-! ## The sequence law (R22, R143) -/

theorem andThen_eq_next_iff {o : Out} {f : State → Out} {t : State} :
    andThen o f = .next t ↔ ∃ s, o = .next s ∧ f s = .next t := by
  cases o <;> simp [andThen]

theorem isTx_iff {a : HostAct} :
    isTx a = true ↔ ∃ w dest plen, a = .write offCmd w ∧ decode w = .ok (.tx dest plen) := by
  cases a with
  | read off => simp [isTx]
  | write off w =>
    simp only [isTx, Bool.and_eq_true, beq_iff_eq]
    split
    next dest plen hw => simp [hw]
    next hw => simpa using fun _ => hw

/-- A legal TX that is not refused transmits some payload, with `BUSY` set (R28, log 14). -/
theorem hostAccess_of_isTx {a : HostAct} {s t : State} (ha : isTx a = true) (h : hostAccess a s = .next t) :
    ∃ dest plen payload, State.transmit { s with busy := true } dest plen payload = t := by
  obtain ⟨w, dest, plen, rfl, hw⟩ := isTx_iff.mp ha
  cases hb : s.busy with
  | true => simp [hostAccess, hostWrite_cmd, startCommand, hb] at h
  | false =>
    obtain ⟨payload, -, ht⟩ := exec_tx_eq_next_iff.mp ((startCommand_of_ok hb hw).symm.trans h)
    exact ⟨dest, plen, payload, ht⟩

theorem hostAccess_seq_of_isTx {a : HostAct} {s t : State} (ha : isTx a = true) (h : hostAccess a s = .next t) :
    t.seq = s.seq + 1#8 := by
  obtain ⟨dest, plen, payload, rfl⟩ := hostAccess_of_isTx ha h
  exact (State.transmit_frame { s with busy := true } dest plen payload).1

/-- Every other access leaves `SEQ` alone: no command but TX writes it (R22). -/
theorem hostAccess_seq_of_not_isTx {a : HostAct} {s t : State} (ha : isTx a = false) (h : hostAccess a s = .next t) :
    t.seq = s.seq := by
  cases a with
  | read off =>
    obtain ⟨d, f, rfl⟩ := hostRead_inv h
    rfl
  | write off v =>
    rcases hostWrite_inv h with ⟨rfl, hstart⟩ | ⟨i, rfl⟩ | rfl
    · rcases startCommand_inv hstart with ⟨i, hw, hexec⟩ | rfl
      · have hi : ∀ dest plen, i ≠ .tx dest plen := by
          rintro dest plen rfl
          rw [isTx_iff.mpr ⟨v, dest, plen, rfl, hw⟩] at ha
          cases ha
        exact (onlyTxReadsOrWritesSeq.2 i { s with busy := true } 0#8 hi).2 t hexec
      · rfl
    · rfl
    · rfl

/-- A run of host accesses adds the number of its legal TX commands to `SEQ`, mod 256, and keeps the parameters. -/
theorem runHost_seq {acts : List HostAct} {s t : State} (h : runHost acts s = .next t) :
    t.seq = s.seq + BitVec.ofNat 8 (acts.countP isTx) ∧ t.par = s.par := by
  induction acts generalizing s with
  | nil => cases h; simp
  | cons a acts ih =>
    obtain ⟨r, haccess, hrest⟩ := andThen_eq_next_iff.mp h
    obtain ⟨hseq, hpar⟩ := ih hrest
    refine ⟨?_, hpar.trans (hostAccess_appendsAnswered haccess).par⟩
    cases ha : isTx a with
    | true =>
      rw [hseq, hostAccess_seq_of_isTx ha haccess, List.countP_cons_of_pos ha, Nat.add_comm, BitVec.ofNat_add,
        BitVec.add_assoc]
    | false => rw [hseq, hostAccess_seq_of_not_isTx ha haccess, List.countP_cons_of_neg (by simp [ha])]

/-- A legal TX returns `SEQ` in `RESULT.B0`, and its ninth transaction writes it into the header (R143). -/
theorem hostAccess_carries_seq {a : HostAct} {s t : State} (ha : isTx a = true) (h : hostAccess a s = .next t) :
    t.result.extractLsb' 8 8 = s.seq ∧
      (t.trace.drop s.trace.length)[8]? = some (.wr (.long (s.par.aTxnfifo + 4#11)) s.seq) := by
  obtain ⟨dest, plen, payload, rfl⟩ := hostAccess_of_isTx ha h
  obtain ⟨sL, sH, pL, pH, b, -, hend⟩ := State.transmit_spec { s with busy := true } dest plen payload
  simp only [hend, State.issueAll_trace, List.drop_left, resultWord_b0, txEvents_seq, and_self]

/-- Settles O31: the run counts the TX commands into `SEQ`, and the next TX puts `SEQ` into its result and its ninth
transaction. -/
theorem sequenceNumbersCountTransmissions : Obligations.SequenceNumbersCountTransmissions := by
  intro acts a s t u hrun ha haccess
  obtain ⟨hseq, hpar⟩ := runHost_seq hrun
  obtain ⟨hresult, htrace⟩ := hostAccess_carries_seq ha haccess
  rw [hpar] at htrace
  exact hseq ▸ ⟨rfl, hostAccess_seq_of_isTx ha haccess, hresult,
    (hostAccess_appendsAnswered haccess).par.trans hpar, htrace⟩

end Sys2Proof.Machine
end

section
/-! The receive commands (R160 to R166): RXCHUNK in its three forms and RXWHOLE, each as one whole state, with their words, and
the number of transactions a chunk issues (R168). RXCHUNK.FIRST is `Drain` from the session it opens (`openAt`), and RXWHOLE, when
it accepts the frame, ends as that `Drain` does with room for the whole frame. -/
namespace Sys2Proof.Machine

/-! ## Rows of RXCHUNK (R85, R88, R89) -/

/-- A row of RXCHUNK fixes `OP` and the reserved bits, and so much of `ABORT` and `FIRST` as selects the form `i` (R89). -/
theorem encodes_rxchunk {mask value : Word} {i : Word → Instr} (hop : mask.extractLsb' 0 4 = 0xF#4)
    (hvalue : fieldOp value = 0x5#4) (hmask : mask &&& 0xFC0000C0#32 = 0xFC0000C0#32) (hres : value &&& 0xFC0000C0#32 = 0#32)
    (hform : ∀ w, w &&& mask = value → chunkForm w = i w) : Encodes mask value i := by
  intro w h
  rw [decode_rxchunk ((fieldOp_of_masked h hop).trans hvalue) ((and_submask h hmask).trans hres), hform w h]

/-! ## What each command does, session open or not (R163 to R166, R202, R203) -/

theorem exec_rxwhole_of_idle {s : State} (dst cap : BitVec 9) (hs : s.sessOpen = false) :
    exec (.rxwhole dst cap) s = .next (s.receiveWhole dst cap) := by
  simp [exec, execRxwhole, hs]

theorem exec_rxchunkFirst_of_zero {s : State} (dst : BitVec 9) (hs : s.sessOpen = false) :
    exec (.rxchunkFirst dst 0#9) s = .next (s.raise .bufferTooSmall 0#8) := by
  simp [exec, execRxchunkFirst, hs]

theorem exec_rxchunkNext_of_idle {s : State} (dst cap : BitVec 9) (hs : s.sessOpen = false) :
    exec (.rxchunkNext dst cap) s = .next (s.raise .noSession 0#8) := by
  simp [exec, execRxchunkNext, hs]

theorem exec_rxchunkAbort_spec (first : Bool) (dst cap : BitVec 9) (s : State) : ∃ f e,
    s.Answered (flushEnableEvents s.par f e) ∧ exec (.rxchunkAbort first dst cap) s =
      .next { s.issueAll (flushEnableEvents s.par f e) with
        sessOpen := false, sessRem := 0#8, result := 0x00000004#32, busy := false } := by
  obtain ⟨f, e, hanswered, hissued⟩ := s.rxFlush_rxEnable
  exact ⟨f, e, hanswered, by rw [← hissued]; rfl⟩

theorem disableEvents_length (p : Params) (v : Byte) : (disableEvents p v).length = 2 := rfl

theorem flushEnableEvents_length (p : Params) (f e : Byte) : (flushEnableEvents p f e).length = 4 := rfl

/-- Settles O34: the flush and the enable, then the session's two fields and `RESULT`. -/
theorem abortFlushesEnablesAndCloses : Obligations.AbortFlushesEnablesAndCloses := by
  refine ⟨fun first dst cap s => ?_, ?_, reservedBitsRaise_of_mask rfl⟩
  · obtain ⟨f, e, hanswered, hend⟩ := exec_rxchunkAbort_spec first dst cap s
    exact ⟨f, e, hanswered, flushEnableEvents_length .., hend⟩
  · exact encodes_rxchunk (by decide) (by decide) (by decide) (by decide) fun w h =>
      chunkForm_abort (getLsbD_of_masked h (k := 5) (by decide))

/-- Settles O36: NEXT in a session is `Drain`, by `drain_spec`. -/
theorem nextChunkContinuesTheSession : Obligations.NextChunkContinuesTheSession := by
  refine ⟨fun dst cap s => ⟨fun hs => ?_, fun hs => ?_⟩, ?_, reservedBitsRaise_of_mask rfl⟩
  · rw [exec_rxchunkNext_of_idle dst cap hs]
    rfl
  · obtain ⟨data, m, hlen, hanswered, hread, hopen, hdone⟩ := s.drain_spec dst cap.toNat
    rw [exec_rxchunkNext_of_open dst cap hs]
    refine ⟨data, m, hlen, hanswered, hread, fun hlt => ⟨?_, ?_⟩, fun hle => ?_⟩
    · rw [readEvents_length, hlen]
    · rw [hopen hlt, resultWord_eq_bytes]
      rfl
    · obtain ⟨lqi, rssi, f, e, hfinished, hend⟩ := hdone hle
      refine ⟨lqi, rssi, f, e, hfinished, ?_, ?_⟩
      · simp [flushEnableEvents_length, hlen]
      · rw [hend, resultWord_eq_bytes]
        rfl
  · exact encodes_rxchunk (by decide) (by decide) (by decide) (by decide) fun w h =>
      chunkForm_next (getLsbD_of_masked h (k := 5) (by decide)) (getLsbD_of_masked h (k := 4) (by decide))

/-! ## The session RXCHUNK.FIRST opens (R165) -/

/-- The length byte: the radio's answer at `A_RXFIFO` once reception is disabled (R163, R165). -/
def State.frameLength (s : State) : Byte := s.rxDisable.radioAnswer (.long s.par.aRxfifo)

/-- The transactions up to the length byte, as the radio answers them (R163, R165). -/
def State.lengthEvents (s : State) : List BusEvent :=
  disableEvents s.par (s.radioAnswer (.short s.par.aBbreg1)) ++ [.rd (.long s.par.aRxfifo) s.frameLength]

theorem State.lengthEvents_length (s : State) : s.lengthEvents.length = 3 := rfl

theorem State.Answered_lengthEvents (s : State) : s.Answered s.lengthEvents := ⟨rfl, rfl, trivial⟩

theorem State.lengthEvents_append_readEvents (s : State) (data : List Byte) :
    s.lengthEvents ++ readEvents (s.par.aRxfifo + 1#11) data =
      disableEvents s.par (s.radioAnswer (.short s.par.aBbreg1)) ++ readEvents s.par.aRxfifo (s.frameLength :: data) := by
  simp [lengthEvents, readEvents]

/-- The session that RXCHUNK.FIRST opens, before its `Drain`: the length byte is read and stands at `dst` (R165). -/
def State.openAt (s : State) (dst : BitVec 9) : State := { s.issueAll s.lengthEvents with
  hbuf := s.hbuf.write dst.toNat s.frameLength, sessOpen := true, sessRem := s.frameLength, sessCur := s.par.aRxfifo + 1#11 }

@[simp] theorem State.openAt_par (s : State) (dst : BitVec 9) : (s.openAt dst).par = s.par := rfl
@[simp] theorem State.openAt_sessOpen (s : State) (dst : BitVec 9) : (s.openAt dst).sessOpen = true := rfl
@[simp] theorem State.openAt_sessRem (s : State) (dst : BitVec 9) : (s.openAt dst).sessRem = s.frameLength := rfl
@[simp] theorem State.openAt_sessCur (s : State) (dst : BitVec 9) : (s.openAt dst).sessCur = s.par.aRxfifo + 1#11 := rfl
@[simp] theorem State.openAt_hbuf (s : State) (dst : BitVec 9) :
    (s.openAt dst).hbuf = s.hbuf.write dst.toNat s.frameLength := rfl
@[simp] theorem State.openAt_trace (s : State) (dst : BitVec 9) : (s.openAt dst).trace = s.trace ++ s.lengthEvents :=
  State.issueAll_trace ..

theorem State.openSession_eq (s : State) (dst cap : BitVec 9) :
    s.openSession dst cap = (s.openAt dst).drain (dst + 1#9) (cap.toNat - 1) := rfl

theorem exec_rxchunkFirst_of_room {s : State} (dst : BitVec 9) {cap : BitVec 9} (hs : s.sessOpen = false) (hcap : cap ≠ 0#9) :
    exec (.rxchunkFirst dst cap) s = .next ((s.openAt dst).drain (dst + 1#9) (cap.toNat - 1)) := by
  simp [exec, execRxchunkFirst, hs, hcap, State.openSession_eq]

/-- What is issued from the session just opened is issued after the transactions that opened it. -/
theorem State.issueAll_openAt (s : State) (dst : BitVec 9) (es : List BusEvent) : (s.openAt dst).issueAll es =
    { s.issueAll (s.lengthEvents ++ es) with
      hbuf := s.hbuf.write dst.toNat s.frameLength, sessOpen := true, sessRem := s.frameLength
      sessCur := s.par.aRxfifo + 1#11 } := by
  simp [State.openAt, State.issueAll_eq]

theorem State.Answered_openAt {s : State} {dst : BitVec 9} {es : List BusEvent} (h : (s.openAt dst).Answered es) :
    s.Answered (s.lengthEvents ++ es) :=
  State.Answered_append.mpr ⟨s.Answered_lengthEvents, State.Answered.congr (s := s.openAt dst) rfl rfl rfl h⟩

/-- `drain_spec` from the session just opened, told from the state before it: the transactions start with those that opened the
session, and the length byte stands before the bytes copied. -/
theorem State.openAt_drain_spec (s : State) (dst : BitVec 9) (c : Nat) : ∃ data m,
    let n := min s.frameLength.toNat c
    let start := s.lengthEvents ++ readEvents (s.par.aRxfifo + 1#11) data
    let cur := s.par.aRxfifo + 1#11 + BitVec.ofNat 11 n
    data.length = n ∧ s.Answered start ∧ (∀ j, m.read j.toNat = overlaid s.hbuf dst (s.frameLength :: data) j) ∧
    (c < s.frameLength.toNat → (s.openAt dst).drain (dst + 1#9) c = { s.issueAll start with
      hbuf := m, sessOpen := true, sessRem := s.frameLength - BitVec.ofNat 8 n, sessCur := cur
      result := resultWord .ok (s.frameLength - BitVec.ofNat 8 n) 0#8 0#8, busy := false }) ∧
    (s.frameLength.toNat ≤ c → ∃ lqi rssi f e,
      let es := start ++ readEvents cur [lqi, rssi] ++ flushEnableEvents s.par f e
      s.Answered es ∧ (s.openAt dst).drain (dst + 1#9) c = { s.issueAll es with
        hbuf := m, sessOpen := false, sessRem := 0#8, sessCur := cur + 2#11, sessLqi := lqi, sessRssi := rssi
        result := resultWord .ok 0#8 lqi rssi, busy := false }) := by
  obtain ⟨data, m, hlen, hanswered, hread, hopen, hdone⟩ := (s.openAt dst).drain_spec (dst + 1#9) c
  simp only [State.openAt_par, State.openAt_sessRem, State.openAt_sessCur, State.openAt_hbuf, State.issueAll_openAt]
    at hlen hanswered hread hopen hdone
  refine ⟨data, m, hlen, State.Answered_openAt hanswered, fun j => ?_, hopen, fun hle => ?_⟩
  · have := s.frameLength.isLt
    rw [hread j]
    exact overlaid_cons (by omega)
  · obtain ⟨lqi, rssi, f, e, hfinished, hend⟩ := hdone hle
    refine ⟨lqi, rssi, f, e, ?_, ?_⟩
    · simpa only [List.append_assoc] using State.Answered_openAt hfinished
    · simpa only [List.append_assoc] using hend

/-- Settles O35: FIRST with room is `Drain` from the session it opens, by `openAt_drain_spec`. -/
theorem firstChunkOpensTheSession : Obligations.FirstChunkOpensTheSession := by
  refine ⟨fun dst cap s => ⟨fun hs => ?_, fun hs hcap => ?_, fun hs hcap => ?_⟩, ?_, reservedBitsRaise_of_mask rfl⟩
  · rw [exec_rxchunkFirst_of_open dst cap hs]
    rfl
  · rw [hcap, exec_rxchunkFirst_of_zero dst hs]
    rfl
  · obtain ⟨data, m, hlen, hanswered, hread, hopen, hdone⟩ := s.openAt_drain_spec dst (cap.toNat - 1)
    rw [s.lengthEvents_append_readEvents] at hanswered hopen hdone
    rw [exec_rxchunkFirst_of_room dst hs hcap]
    refine ⟨_, s.frameLength, data, m, hlen, hanswered, hread, fun hlt => ⟨?_, ?_⟩, fun hle => ?_⟩
    · simp [disableEvents_length, hlen]
      omega
    · rw [hopen hlt, resultWord_eq_bytes]
      rfl
    · obtain ⟨lqi, rssi, f, e, hfinished, hend⟩ := hdone hle
      refine ⟨lqi, rssi, f, e, hfinished, ?_, ?_⟩
      · simp [disableEvents_length, flushEnableEvents_length, hlen]
        omega
      · rw [hend, resultWord_eq_bytes]
        rfl
  · exact encodes_rxchunk (by decide) (by decide) (by decide) (by decide) fun w h =>
      chunkForm_first (getLsbD_of_masked h (k := 5) (by decide)) (getLsbD_of_masked h (k := 4) (by decide))

/-! ## Whole reception as one `Drain` (R128, R161 to R163) -/

/-- The copy loop of `Drain` (R161) is the read loop of RXWHOLE (R128, R163) from the cursor on, which moves along; neither looks
at the session's other fields, `RESULT` or `BUSY`. -/
theorem State.drainBytes_eq_readBuf (s : State) (p : BitVec 9) (n : Nat) (sessOpen : Bool) (sessRem : Byte)
    (sessCur : BitVec 11) (result : Word) (busy : Bool) :
    State.drainBytes { s with sessOpen, sessRem, sessCur, result, busy } p n =
      { s.readBuf sessCur p n with sessOpen, sessRem, sessCur := sessCur + BitVec.ofNat 11 n, result, busy } := by
  induction n generalizing s p sessCur with
  | zero => simp [State.drainBytes, State.readBuf]
  | succ n ih =>
    have hcur : sessCur + BitVec.ofNat 11 (n + 1) = sessCur + 1#11 + BitVec.ofNat 11 n := by
      rw [BitVec.add_assoc, ← BitVec.ofNat_add, Nat.add_comm 1]
    rw [hcur]
    exact ih ((s.memRead (.long sessCur)).2.hbufWrite p (s.radioAnswer (.long sessCur))) _ _

/-- The end of an accepted frame but for the session and `RESULT` (R162, R163): the trailer pair read from `a` on and recorded, the
FIFO flushed, reception enabled. -/
def State.takeTrailer (s : State) (a : BitVec 11) : State :=
  let lqi := s.memRead (.long a)
  let rssi := lqi.2.memRead (.long (a + 1#11))
  State.rxEnable (State.rxFlush { rssi.2 with sessLqi := lqi.1, sessRssi := rssi.1 })

theorem State.finish_eq_takeTrailer (s : State) (sessOpen : Bool) (sessRem : Byte) (sessCur : BitVec 11) (result : Word)
    (busy : Bool) : State.finish { s with sessOpen, sessRem, sessCur, result, busy } =
      let t := s.takeTrailer sessCur
      { t with sessOpen := false, sessRem, sessCur := sessCur + 1#11 + 1#11
               result := resultWord .ok 0#8 t.sessLqi t.sessRssi, busy := false } := rfl

/-- The state once the whole frame stands in `HBUF` from `dst` on, its length byte first, and before its trailer pair (R163). -/
def State.copyFrame (s : State) (dst : BitVec 9) : State :=
  State.readBuf { s.issueAll s.lengthEvents with hbuf := s.hbuf.write dst.toNat s.frameLength }
    (s.par.aRxfifo + 1#11) (dst + 1#9) s.frameLength.toNat

/-- The address of the trailer pair, behind the length byte and the frame (R163). -/
def State.trailerAddr (s : State) : BitVec 11 := s.par.aRxfifo + 1#11 + s.frameLength.setWidth 11

theorem State.receiveWhole_of_lt {s : State} {dst cap : BitVec 9} (h : cap.toNat < s.frameLength.toNat) :
    s.receiveWhole dst cap = (s.issueAll s.lengthEvents).rxFlush.rxEnable.raise .bufferTooSmall s.frameLength := if_pos h

theorem State.receiveWhole_of_le {s : State} {dst cap : BitVec 9} (h : s.frameLength.toNat ≤ cap.toNat) :
    s.receiveWhole dst cap =
      let t := (s.copyFrame dst).takeTrailer s.trailerAddr
      t.putResult .ok s.frameLength t.sessLqi t.sessRssi := by
  have haddr : s.trailerAddr + 1#11 = s.par.aRxfifo + 2#11 + s.frameLength.setWidth 11 := by
    unfold State.trailerAddr
    bv_omega
  simp only [State.takeTrailer, haddr]
  exact if_neg (Nat.not_lt.mpr h)

/-- A `Drain` with room for the remaining bytes copies them and finishes (R161, R162). -/
theorem State.drain_of_le {s : State} {p : BitVec 9} {c : Nat} (h : s.sessRem.toNat ≤ c) : s.drain p c =
    State.finish { s.drainBytes p s.sessRem.toNat with sessRem := 0#8 } := by
  simp [State.drain, Nat.min_eq_left h]

/-- The session just opened, drained of its whole frame. -/
theorem State.openAt_drain_frame (s : State) (dst : BitVec 9) :
    (s.openAt dst).drain (dst + 1#9) s.frameLength.toNat =
      let t := (s.copyFrame dst).takeTrailer s.trailerAddr
      { t with sessOpen := false, sessRem := 0#8, sessCur := s.trailerAddr + 1#11 + 1#11
               result := resultWord .ok 0#8 t.sessLqi t.sessRssi, busy := false } := by
  let t : State := { s.issueAll s.lengthEvents with hbuf := s.hbuf.write dst.toNat s.frameLength }
  have hcopy : (s.openAt dst).drainBytes (dst + 1#9) s.frameLength.toNat = _ :=
    t.drainBytes_eq_readBuf _ _ true s.frameLength (s.par.aRxfifo + 1#11) t.result t.busy
  have hrem : (s.openAt dst).sessRem.toNat ≤ s.frameLength.toNat := le_rfl
  rw [State.drain_of_le hrem, State.openAt_sessRem, hcopy, BitVec.ofNat_toNat]
  exact (s.copyFrame dst).finish_eq_takeTrailer true 0#8 s.trailerAddr t.result t.busy

/-- RXWHOLE receives an accepted frame as a session with room for it does, but leaves the session's fields as they were and
returns the length (R163, R165, R167). -/
theorem State.receiveWhole_eq_drain {s : State} {dst cap : BitVec 9} (h : s.frameLength.toNat ≤ cap.toNat) :
    s.receiveWhole dst cap =
      let t := (s.openAt dst).drain (dst + 1#9) s.frameLength.toNat
      { t with sessOpen := s.sessOpen, sessRem := s.sessRem, sessCur := s.sessCur
               result := resultWord .ok s.frameLength t.sessLqi t.sessRssi } := by
  obtain ⟨hopen, hrem, hcur, -⟩ := s.receiveWhole_frame dst cap
  rw [State.openAt_drain_frame, ← hopen, ← hrem, ← hcur, State.receiveWhole_of_le h]
  rfl

/-- Settles O33: a rejected frame is flushed, by `rxFlush_rxEnable`; an accepted one is received as `openAt_drain_spec` says. -/
theorem rxwholeReceivesOrRejectsTheFrame : Obligations.RxwholeReceivesOrRejectsTheFrame := by
  refine ⟨fun dst cap s => ⟨fun hs => ?_, fun hs => ?_⟩, ?_, reservedBitsRaise_of_mask rfl⟩
  · rw [exec_rxwhole_of_open dst cap hs]
    rfl
  · rw [exec_rxwhole_of_idle dst cap hs]
    refine ⟨s.radioAnswer (.short s.par.aBbreg1), s.frameLength, fun hlt => ?_, fun hle => ?_⟩
    · obtain ⟨f, e, hanswered, hissued⟩ := (s.issueAll s.lengthEvents).rxFlush_rxEnable
      rw [State.issueAll_par] at hanswered hissued
      refine ⟨f, e, State.Answered_append.mpr ⟨s.Answered_lengthEvents, hanswered⟩, rfl, ?_⟩
      rw [State.receiveWhole_of_lt hlt, hissued, State.raise, State.putResult, resultWord_eq_bytes, ← State.issueAll_append]
      rfl
    · obtain ⟨data, m, hlen, -, hread, -, hdone⟩ := s.openAt_drain_spec dst s.frameLength.toNat
      obtain ⟨lqi, rssi, f, e, hanswered, hend⟩ := hdone le_rfl
      have hevents (a : BitVec 11) : readEvents a data ++
          readEvents (a + BitVec.ofNat 11 (min s.frameLength.toNat s.frameLength.toNat)) [lqi, rssi] =
            readEvents a (data ++ [lqi, rssi]) := by
        rw [readEvents_append, hlen]
      rw [List.append_assoc s.lengthEvents, hevents] at hanswered hend
      rw [Nat.min_self] at hlen
      refine ⟨data, lqi, rssi, f, e, m, hlen, hanswered, ?_, hread, ?_⟩
      · simp [disableEvents_length, flushEnableEvents_length, hlen]
        omega
      · rw [State.receiveWhole_eq_drain hle, hend]
        simp only [State.issueAll_eq, resultWord_eq_bytes]
        rfl
  · exact encodes_of_encode_eq (by decide) (by decide) (by decide) fun w hop hres =>
      encodeB_fields_whole hop (reservedBWhole_iff.mpr hres)

/-! ## How many transactions a chunk issues (R168) -/

/-- `Drain` ends OK, having issued one read a byte it copies, and the six transactions of `Finish` if none remains. -/
theorem State.drain_issues (s : State) (p : BitVec 9) (c : Nat) : ∃ es b0 b1 b2,
    es.length = min s.sessRem.toNat c + (if s.sessRem.toNat ≤ c then 6 else 0) ∧
    (s.drain p c).trace = s.trace ++ es ∧ (s.drain p c).result = resultWord .ok b0 b1 b2 := by
  obtain ⟨data, m, hlen, -, -, hopen, hdone⟩ := s.drain_spec p c
  rcases Nat.lt_or_ge c s.sessRem.toNat with hlt | hge
  · rw [hopen hlt, if_neg (by omega)]
    exact ⟨_, _, _, _, by rw [readEvents_length, hlen, Nat.add_zero], State.issueAll_trace .., rfl⟩
  · obtain ⟨lqi, rssi, f, e, -, hend⟩ := hdone hge
    rw [hend, if_pos hge]
    exact ⟨_, _, _, _, by simp [hlen, flushEnableEvents_length], State.issueAll_trace .., rfl⟩

theorem exec_rxchunkFirst_trace_length {dst cap : BitVec 9} {s t : State} (h : exec (.rxchunkFirst dst cap) s = .next t) :
    t.trace.length ≤ s.trace.length + cap.toNat + 8 := by
  cases hs : s.sessOpen with
  | true =>
    rw [exec_rxchunkFirst_of_open dst cap hs] at h
    cases h
    rw [State.raise_trace]
    omega
  | false =>
    by_cases hcap : cap = 0#9
    · rw [hcap, exec_rxchunkFirst_of_zero dst hs] at h
      cases h
      rw [State.raise_trace]
      omega
    · rw [exec_rxchunkFirst_of_room dst hs hcap] at h
      cases h
      obtain ⟨es, _, _, _, hlen, htrace, -⟩ := (s.openAt dst).drain_issues (dst + 1#9) (cap.toNat - 1)
      have hpos : cap.toNat ≠ 0 := fun hz => hcap (BitVec.eq_of_toNat_eq hz)
      rw [htrace, State.openAt_trace, List.length_append, List.length_append, hlen, s.lengthEvents_length]
      split <;> omega

theorem exec_rxchunkNext_trace_length {dst cap : BitVec 9} {s t : State} (h : exec (.rxchunkNext dst cap) s = .next t) :
    t.trace.length ≤ s.trace.length + cap.toNat + 6 := by
  cases hs : s.sessOpen with
  | true =>
    rw [exec_rxchunkNext_of_open dst cap hs] at h
    cases h
    obtain ⟨es, _, _, _, hlen, htrace, -⟩ := s.drain_issues dst cap.toNat
    rw [htrace, List.length_append, hlen]
    split <;> omega
  | false =>
    rw [exec_rxchunkNext_of_idle dst cap hs] at h
    cases h
    rw [State.raise_trace]
    omega

theorem exec_rxchunkAbort_trace_length {first : Bool} {dst cap : BitVec 9} {s t : State}
    (h : exec (.rxchunkAbort first dst cap) s = .next t) : t.trace.length = s.trace.length + 4 := by
  obtain ⟨f, e, -, hend⟩ := exec_rxchunkAbort_spec first dst cap s
  rw [hend] at h
  cases h
  rw [State.issueAll_trace, List.length_append, flushEnableEvents_length]

/-- Settles O41: one bound for each form of RXCHUNK. -/
theorem chunkCommandsAreBounded : Obligations.ChunkCommandsAreBounded :=
  fun _ _ _ _ _ => ⟨exec_rxchunkFirst_trace_length, exec_rxchunkNext_trace_length, exec_rxchunkAbort_trace_length⟩

end Sys2Proof.Machine
end

section
/-! Rules of the receive commands together: chunked reception is whole reception (R167), an abort may be repeated (R170), and a
session that stays open is neither flushed nor enabled (R169). -/
namespace Sys2Proof.Machine

/-! ## Chunks in a row are one `Drain` (R161, R167) -/

/-- The end of a chunk that leaves `rem` bytes in the FIFO (R161). -/
def State.leave (s : State) (rem : Byte) : State := State.putResult { s with sessRem := rem } .ok rem 0#8 0#8

@[simp] theorem State.leave_sessRem (s : State) (rem : Byte) : (s.leave rem).sessRem = rem := rfl

@[simp] theorem State.leave_leave (s : State) (rem rem' : Byte) : (s.leave rem).leave rem' = s.leave rem' := rfl

/-- What a chunk that left bytes put into `RESULT` is gone when the session finishes. -/
theorem State.finish_leave (s : State) (rem : Byte) :
    State.finish { s.leave rem with sessRem := 0#8 } = State.finish { s with sessRem := 0#8 } :=
  (s.finish_eq_takeTrailer s.sessOpen 0#8 s.sessCur (s.leave rem).result false).trans
    (s.finish_eq_takeTrailer s.sessOpen 0#8 s.sessCur s.result s.busy).symm

/-- The copy loop does not look at what the chunk before it ended with. -/
theorem State.drainBytes_leave (s : State) (p : BitVec 9) (n : Nat) (rem : Byte) :
    (s.leave rem).drainBytes p n = (s.drainBytes p n).leave rem := by
  rw [show s.drainBytes p n = _ from s.drainBytes_eq_readBuf p n s.sessOpen s.sessRem s.sessCur s.result s.busy]
  exact s.drainBytes_eq_readBuf p n s.sessOpen rem s.sessCur (s.leave rem).result false

/-- A `Drain` that the remaining bytes outlast copies its capacity and leaves the rest (R161). -/
theorem State.drain_of_lt {s : State} {p : BitVec 9} {c : Nat} (h : c < s.sessRem.toNat) :
    s.drain p c = (s.drainBytes p c).leave (s.sessRem - BitVec.ofNat 8 c) := by
  have hmin : min s.sessRem.toNat c = c := Nat.min_eq_right h.le
  have hrem : s.sessRem - BitVec.ofNat 8 c ≠ 0#8 := by
    intro hz
    have := sub_min_toNat s.sessRem c
    rw [hmin, hz, BitVec.toNat_ofNat] at this
    omega
  simp only [State.drain, hmin, if_neg hrem, State.leave]

/-- Two `Drain`s one after the other, the first leaving bytes, are one of both capacities (R167). -/
theorem State.drain_drain {s : State} {p : BitVec 9} {c c' : Nat} (h : c < s.sessRem.toNat) :
    (s.drain p c).drain (p + BitVec.ofNat 9 c) c' = s.drain p (c + c') := by
  let t := (s.drainBytes p c).leave (s.sessRem - BitVec.ofNat 8 c)
  have hrem : t.sessRem.toNat = s.sessRem.toNat - c := by
    have := sub_min_toNat s.sessRem c
    rwa [Nat.min_eq_right h.le] at this
  have hcopy (n : Nat) : t.drainBytes (p + BitVec.ofNat 9 c) n =
      (s.drainBytes p (c + n)).leave (s.sessRem - BitVec.ofNat 8 c) := by
    rw [State.drainBytes_leave, State.drainBytes_add]
  rw [State.drain_of_lt h]
  rcases Nat.lt_or_ge (c + c') s.sessRem.toNat with hlt | hge
  · rw [State.drain_of_lt (by omega : c' < t.sessRem.toNat), State.drain_of_lt hlt, hcopy, State.leave_leave,
      State.leave_sessRem, sub_sub, ← BitVec.ofNat_add]
  · have hall : c + (s.sessRem.toNat - c) = s.sessRem.toNat := by omega
    rw [State.drain_of_le (by omega : t.sessRem.toNat ≤ c'), State.drain_of_le hge, hcopy, State.finish_leave, hrem, hall]

/-- A chunk and the chunks after it, if they cover the remaining bytes, end as one `Drain` of all of these (R167). -/
theorem nextChunks_drain {cs : List (BitVec 9)} {s : State} {p : BitVec 9} {c : Nat} (hs : s.sessOpen = true)
    (h : s.sessRem.toNat ≤ c + (cs.map BitVec.toNat).sum) :
    nextChunks (p + BitVec.ofNat 9 c) cs (s.drain p c) = .next (s.drain p s.sessRem.toNat) := by
  induction cs generalizing c with
  | nil =>
    rw [List.map_nil, List.sum_nil, Nat.add_zero] at h
    rw [nextChunks, State.drain_of_le h, State.drain_of_le le_rfl]
  | cons c' cs ih =>
    rw [List.map_cons, List.sum_cons, ← Nat.add_assoc] at h
    obtain ⟨-, hopen⟩ := s.drain_session p c hs
    rw [nextChunks]
    rcases Nat.lt_or_ge c s.sessRem.toNat with hlt | hge
    · have hnext : p + BitVec.ofNat 9 c + c' = p + BitVec.ofNat 9 (c + c'.toNat) := by
        rw [BitVec.ofNat_add, BitVec.ofNat_toNat, BitVec.setWidth_eq, BitVec.add_assoc]
      rw [if_pos (hopen.mpr hlt), exec_rxchunkNext_of_open _ _ (hopen.mpr hlt), State.drain_drain hlt, hnext]
      exact ih h
    · rw [if_neg (by rw [hopen]; omega), State.drain_of_le hge, State.drain_of_le le_rfl]

/-- However the frame is split into chunks, it is received as by one `Drain` of all of it (R167). -/
theorem receiveInChunks_eq {s : State} {d c1 : BitVec 9} {cs : List (BitVec 9)} (hs : s.sessOpen = false) (hc1 : c1 ≠ 0#9)
    (h : s.frameLength.toNat ≤ (c1.toNat - 1) + (cs.map BitVec.toNat).sum) :
    receiveInChunks d c1 cs s = .next ((s.openAt d).drain (d + 1#9) s.frameLength.toNat) := by
  have hpos : c1.toNat ≠ 0 := fun hz => hc1 (BitVec.eq_of_toNat_eq hz)
  have hnext : d + c1 = d + 1#9 + BitVec.ofNat 9 (c1.toNat - 1) := by bv_omega
  rw [receiveInChunks, exec_rxchunkFirst_of_room d hs hc1, andThen, hnext]
  exact nextChunks_drain (s.openAt_sessOpen d) h

/-- The result word (R90) as two halves: `B2` and `B1`, then `B0` and the status. -/
theorem resultWord_eq_halves (st : Status) (b0 b1 b2 : Byte) :
    resultWord st b0 b1 b2 = (b2 ++ b1) ++ (b0 ++ (0#4 ++ statusCode st)) :=
  (resultWord_eq_bytes st b0 b1 b2).trans (BitVec.append_assoc ..)

theorem resultWord_high (st : Status) (b0 b1 b2 : Byte) : (resultWord st b0 b1 b2).extractLsb' 16 16 = b2 ++ b1 := by
  rw [resultWord_eq_halves]
  exact BitVec.extractLsb'_append_eq_left

theorem resultWord_low (st : Status) (b0 b1 b2 : Byte) :
    (resultWord st b0 b1 b2).extractLsb' 0 16 = b0 ++ (0#4 ++ statusCode st) := by
  rw [resultWord_eq_halves]
  exact BitVec.extractLsb'_append_eq_right

/-- Settles O40: both runs are the `Drain` of the whole frame from the session just opened, but for the fields that RXWHOLE leaves
alone and its result word. -/
theorem chunkedReceptionEqualsWhole : Obligations.ChunkedReceptionEqualsWhole := by
  intro s d cap c1 cs hs hc1 len hfits hcover
  have hwhole : exec (.rxwhole d cap) s = _ :=
    (exec_rxwhole_of_idle d cap hs).trans (congrArg _ (State.receiveWhole_eq_drain hfits))
  refine ⟨_, _, hwhole, receiveInChunks_eq hs hc1 hcover, rfl, rfl, rfl, rfl, rfl, ?_⟩
  rw [State.openAt_drain_frame, resultWord_high, resultWord_high, resultWord_b0, resultWord_low]
  exact ⟨rfl, rfl, rfl, rfl⟩

/-! ## Abort idempotence (R170) -/

theorem exec_rxchunkAbort_fields {first : Bool} {dst cap : BitVec 9} {s t : State}
    (h : exec (.rxchunkAbort first dst cap) s = .next t) :
    t.sessOpen = false ∧ t.sessRem = 0#8 ∧ t.result = 0x00000004#32 ∧ t.busy = false := by
  cases h
  exact ⟨rfl, rfl, rfl, rfl⟩

/-- Settles O42: the fields an abort writes are those the first one left, and FIRST then finds no session open, so its transactions
start with those of `openAt`. -/
theorem abortTwiceIsAbortOnce : Obligations.AbortTwiceIsAbortOnce := by
  intro first dst cap d c s t h
  obtain ⟨hopen, hrem, hresult, hbusy⟩ := exec_rxchunkAbort_fields h
  refine ⟨hopen, hrem, ?_, fun hc => ?_⟩
  · obtain ⟨f, e, -, hend⟩ := exec_rxchunkAbort_spec first dst cap t
    exact ⟨_, hend, by simp [State.issueAll_eq, hopen, hrem, hresult, hbusy]⟩
  · obtain ⟨es, b0, b1, b2, -, htrace, hres⟩ := (t.openAt d).drain_issues (d + 1#9) (c.toNat - 1)
    refine ⟨_, t.radioAnswer (.short t.par.aBbreg1), t.frameLength, exec_rxchunkFirst_of_room d hopen hc, ?_, ?_⟩
    · rw [hres, resultWord_status]
      rfl
    · rw [htrace, State.openAt_trace, List.append_assoc, List.drop_left, ← t.lengthEvents_length, List.take_left]
      rfl

/-! ## A session that stays open (R169) -/

/-- The flush register is none of the registers that the commands other than reception touch (R6, R64). -/
theorem DistinctRegisters.rxflush_ne {p : Params} (h : DistinctRegisters p) :
    p.aRxflush ≠ p.aPanidl ∧ p.aRxflush ≠ p.aPanidh ∧ p.aRxflush ≠ p.aSadrl ∧ p.aRxflush ≠ p.aSadrh ∧
      p.aRxflush ≠ p.aTxncon ∧ p.aRxflush ≠ p.aTxstat ∧ p.aRxflush ≠ p.aIntstat := by
  obtain ⟨hnodup, -⟩ := h
  simp only [List.nodup_cons, List.mem_cons, List.not_mem_nil, not_or] at hnodup
  tauto

/-- A session that a command other than WRS finds open and leaves open is not flushed: reception raises or only reads, and no
other command touches the flush register (R169). -/
theorem exec_spares_rxflush_of_open {i : Instr} {s t : State} (h : exec i s = .next t) (hd : DistinctRegisters s.par)
    (hwrs : ∀ addr data, i ≠ .wrs addr data) (hs : s.sessOpen = true) (ht : t.sessOpen = true) :
    Effect (Spares s.par.aRxflush) s t := by
  obtain ⟨hpl, hph, hsl, hsh, htc, hts, hin⟩ := hd.rxflush_ne
  cases i with
  | tx | txraw | txres | poll | rdl | wrl =>
    exact (exec_effect h).mono fun _ => Spares.of_atRegisters (by simp [touchedShort, *])
  | rds addr => cases h; exact (Effect.memRead s _ (fun _ => Spares.rd _ _ _)).putResult _ _ _ _
  | wrs addr data => exact absurd rfl (hwrs addr data)
  | rxwhole | rxchunkFirst =>
    simp only [exec_rxwhole_of_open _ _ hs, exec_rxchunkFirst_of_open _ _ hs] at h
    cases h
    exact (Effect.refl _ s).putResult _ _ _ _
  | rxchunkAbort =>
    obtain ⟨hclosed, -⟩ := exec_rxchunkAbort_fields h
    simp [hclosed] at ht
  | rxchunkNext dst cap =>
    rw [exec_rxchunkNext_of_open dst cap hs] at h
    cases h
    exact Effect.drain_of_open hs ht

/-- Settles O55: of the two registers, the receive-disable register is spared by `exec_spares_of_open`, the flush register by
`exec_spares_rxflush_of_open`. -/
theorem openSessionIsNotFlushedOrEnabled : Obligations.OpenSessionIsNotFlushedOrEnabled := by
  intro i s t a v hd hwrs hs ht h ha hmem
  have hspares : Effect (Spares a) s t := by
    rcases ha with rfl | rfl
    · exact exec_spares_of_open h hd (fun addr data hi => absurd hi (hwrs addr data)) hs ht
    · exact exec_spares_rxflush_of_open h hd hwrs hs ht
  exact hspares.of_mem_drop hmem v rfl

end Sys2Proof.Machine
end

section
/-! The event decoder: POLL as one transaction and a result word. -/
namespace Sys2Proof.Machine

/-- POLL ends after its one read, with the event flags of the answer in `B0` (R190, R192). -/
theorem exec_poll_spec (s : State) : exec .poll s =
    .next { s.issueAll [.rd (.short s.par.aIntstat) (s.radioAnswer (.short s.par.aIntstat))] with
      result := 0#8 ++ 0#8 ++ eventFlags s.par (s.radioAnswer (.short s.par.aIntstat)) ++ 0x00#8, busy := false } := by
  rw [exec_poll_eq, State.memRead_eq, State.putResult, resultWord_eq_bytes]
  rfl

/-- Settles O43: the whole next state by `exec_poll_spec`, the row as that of a format N command. -/
theorem pollDecodesTheInterruptStatus : Obligations.PollDecodesTheInterruptStatus := by
  refine ⟨exec_poll_spec, ?_, reservedBitsRaise_of_mask rfl⟩
  exact encodes_of_encode_eq (by decide) (by decide) (by decide) fun w hop hres =>
    encodeN_fields hop (reservedN_iff.mpr hres)

end Sys2Proof.Machine
end

section
/-! The exceptions: the model fault and the accesses that have no move, and the order in which errors are reported. -/
namespace Sys2Proof.Machine

/-! ## The model fault and the host's duties (R220) -/

/-- An unwritten byte below the length is missing from the slice: a length byte cannot reach the end of `HBUF`, so no index
wraps. -/
theorem hbufSlice_of_unwritten {m : Memory} {n : BitVec 8} {k : Nat} (hk : k < n.toNat) (hread : m.read k = none) :
    hbufSlice m 0#9 n.toNat = none := by
  have hindex : (0#9 + BitVec.ofNat 9 k).toNat = k := by
    rw [BitVec.zero_add, BitVec.toNat_ofNat, Nat.mod_eq_of_lt (by omega)]
  exact hbufSlice_eq_none.mpr ⟨k, hk, by rw [hindex, hread]⟩

theorem exec_tx_of_unwritten {plen : BitVec 8} {s : State} {k : Nat} (dest : BitVec 16) (hk : k < plen.toNat)
    (hread : s.hbuf.read k = none) : exec (.tx dest plen) s = .fault .unwrittenHbuf := by
  simp only [exec, execTx, hbufSlice_of_unwritten hk hread]

theorem exec_txraw_of_unwritten {flen : BitVec 8} {s : State} {k : Nat} (hlen : BitVec 8) (hk : k < flen.toNat)
    (hread : s.hbuf.read k = none) : exec (.txraw hlen flen) s = .fault .unwrittenHbuf := by
  simp only [exec, execTxraw, hbufSlice_of_unwritten hk hread]

theorem startCommand_of_busy (w : Word) {s : State} (hb : s.busy = true) : startCommand w s = .fault .hostWhileBusy := by
  simp only [startCommand, hb, if_true]

theorem hostRead_hbuf_of_busy (i : BitVec 9) {s : State} (hb : s.busy = true) :
    hostRead (0x200#10 + i.setWidth 10) s = .fault .hostWhileBusy := by
  simp only [hostRead, hbufIndex_hbuf, hb, if_true]

theorem hostWrite_hbuf_of_busy (i : BitVec 9) (v : Word) {s : State} (hb : s.busy = true) :
    hostWrite (0x200#10 + i.setWidth 10) v s = .fault .hostWhileBusy := by
  simp only [hostWrite, if_neg (hbufOffset_ne_cmd i), hbufIndex_hbuf, hb, if_true]

/-- Settles O6: a missing byte leaves no payload to transmit, and while `BUSY = 1` the three accesses answer a fault. -/
theorem modelFaultsAndHostDuties : Obligations.ModelFaultsAndHostDuties := by
  refine ⟨fun dest plen s k hk hread => exec_tx_of_unwritten dest hk hread,
    fun hlen flen s k hk hread => exec_txraw_of_unwritten hlen hk hread, fun s hb => ⟨fun w t h => ?_, fun i t => ⟨fun h => ?_,
      fun v h => ?_⟩⟩⟩
  · cases ((hostWrite_cmd w s).trans (startCommand_of_busy w hb)).symm.trans h
  · cases (hostRead_hbuf_of_busy i hb).symm.trans h
  · cases (hostWrite_hbuf_of_busy i v hb).symm.trans h

/-! ## The order of errors (R202, R203, R209) -/

/-- A legal word with RXCHUNK's opcode has its reserved bits 0, so it is the form that `ABORT` and `FIRST` select (R85, R89). -/
theorem decode_rxchunk_of_legal {w : Word} (hlegal : ¬ IllegalWord w) (hop : w.extractLsb' 0 4 = 0x5#4) :
    decode w = .ok (chunkForm w) := by
  have hmask : reservedMask (fieldOp w).toNat = some 0xFC0000C0#32 := by rw [fieldOp, hop]; rfl
  exact decode_rxchunk hop (not_not.mp fun hres => hlegal ((illegalWord_iff_of_mask hmask).mpr hres))

/-- A legal abort reports `ABORTED` whatever the session and the capacity are (R164, R209). -/
theorem startCommand_abort {w : Word} {s : State} (hlegal : ¬ IllegalWord w) (hop : w.extractLsb' 0 4 = 0x5#4)
    (habort : fieldAbort w = true) (hb : s.busy = false) : ∃ t, startCommand w s = .next t ∧ t.result = 0x00000004#32 := by
  obtain ⟨f, e, -, hend⟩ := exec_rxchunkAbort_spec (fieldFirst w) (fieldDst w) (fieldCap w) { s with busy := true }
  rw [startCommand_of_ok hb (decode_rxchunk_of_legal hlegal hop), chunkForm_abort habort]
  exact ⟨_, hend, rfl⟩

/-- Each event flag is its own bit of the interrupt status, whatever the others are (R190, R209). -/
theorem eventFlags_bits (p : Params) (v : Byte) : (eventFlags p v).getLsbD 0 = v.getLsbD p.bRxif ∧
    (eventFlags p v).getLsbD 1 = v.getLsbD p.bTxnif ∧ (eventFlags p v).getLsbD 2 = v.getLsbD p.bSecif := by
  simp only [eventFlags, BitVec.getLsbD_append]
  simp

/-- Settles O38: the decoder comes before every command, the abort before the session, and the session before the capacity. -/
theorem errorsAreReportedInOrder : Obligations.ErrorsAreReportedInOrder := by
  obtain ⟨hillegal, -⟩ := illegalWordsOnlyRaise
  exact ⟨hillegal, fun w s hlegal hop habort hb => startCommand_abort hlegal hop habort hb,
    fun dst cap s hs => ⟨exec_rxchunkFirst_of_open dst cap hs, exec_rxwhole_of_open dst cap hs⟩,
    fun dst cap s hs => ⟨exec_rxchunkNext_of_idle dst cap hs, exec_rxchunkFirst_of_zero dst hs⟩, eventFlags_bits⟩

end Sys2Proof.Machine
end

section
/-! Rules of the whole machine: how far into `HBUF` a command writes (R29, R241), and how many transactions it issues (R246). -/
namespace Sys2Proof.Machine

/-! ## What reception leaves of `HBUF` (R29, R241) -/

/-- A byte behind the run laid down is the byte that stood there. -/
theorem overlaid_of_length_le {m : Memory} {d j : BitVec 9} {bs : List Byte} (h : bs.length ≤ (j - d).toNat) :
    overlaid m d bs j = m.read j.toNat := if_neg (Nat.not_lt.mpr h)

/-- `Drain` writes from `p` on, at most its capacity (R161). -/
theorem State.drain_keeps_hbuf {s : State} {p j : BitVec 9} {c : Nat} (h : c ≤ (j - p).toNat) :
    (s.drain p c).hbuf.read j.toNat = s.hbuf.read j.toNat := by
  obtain ⟨data, m, hlen, -, hread, hopen, hdone⟩ := s.drain_spec p c
  have hkept : m.read j.toNat = s.hbuf.read j.toNat := by
    rw [hread, overlaid_of_length_le (by omega)]
  rcases Nat.lt_or_ge c s.sessRem.toNat with hlt | hge
  · rw [hopen hlt, hkept]
  · obtain ⟨_, _, _, _, -, hend⟩ := hdone hge
    rw [hend, hkept]

/-- A session writes the length byte at `dst`, and its first `Drain` at most its capacity behind it (R165). -/
theorem State.openAt_drain_keeps_hbuf {s : State} {dst j : BitVec 9} {c : Nat} (h : c < (j - dst).toNat) :
    ((s.openAt dst).drain (dst + 1#9) c).hbuf.read j.toNat = s.hbuf.read j.toNat := by
  have hbehind : c ≤ (j - (dst + 1#9)).toNat := by bv_omega
  have hne : j.toNat ≠ dst.toNat := by bv_omega
  rw [State.drain_keeps_hbuf hbehind, State.openAt_hbuf, Memory.read_write_other _ _ hne]

theorem State.rxFlush_rxEnable_hbuf (s : State) : s.rxFlush.rxEnable.hbuf = s.hbuf := by
  obtain ⟨_, _, -, hissued⟩ := s.rxFlush_rxEnable
  rw [hissued, State.issueAll_hbuf]

theorem exec_rxchunkFirst_keeps_hbuf {dst cap j : BitVec 9} {s t : State} (h : exec (.rxchunkFirst dst cap) s = .next t)
    (hj : cap.toNat ≤ (j - dst).toNat) : t.hbuf.read j.toNat = s.hbuf.read j.toNat := by
  cases hs : s.sessOpen with
  | true =>
    rw [exec_rxchunkFirst_of_open dst cap hs] at h
    cases h
    rfl
  | false =>
    by_cases hcap : cap = 0#9
    · rw [hcap, exec_rxchunkFirst_of_zero dst hs] at h
      cases h
      rfl
    · rw [exec_rxchunkFirst_of_room dst hs hcap] at h
      cases h
      exact State.openAt_drain_keeps_hbuf (by bv_omega)

theorem exec_rxchunkNext_keeps_hbuf {dst cap j : BitVec 9} {s t : State} (h : exec (.rxchunkNext dst cap) s = .next t)
    (hj : cap.toNat ≤ (j - dst).toNat) : t.hbuf.read j.toNat = s.hbuf.read j.toNat := by
  cases hs : s.sessOpen with
  | true =>
    rw [exec_rxchunkNext_of_open dst cap hs] at h
    cases h
    exact State.drain_keeps_hbuf hj
  | false =>
    rw [exec_rxchunkNext_of_idle dst cap hs] at h
    cases h
    rfl

/-- RXWHOLE counts the length byte on top of the capacity: a frame it accepts is the length byte and at most `CAP` more (R163). -/
theorem exec_rxwhole_keeps_hbuf {dst cap j : BitVec 9} {s t : State} (h : exec (.rxwhole dst cap) s = .next t)
    (hj : cap.toNat < (j - dst).toNat) : t.hbuf.read j.toNat = s.hbuf.read j.toNat := by
  cases hs : s.sessOpen with
  | true =>
    rw [exec_rxwhole_of_open dst cap hs] at h
    cases h
    rfl
  | false =>
    rw [exec_rxwhole_of_idle dst cap hs] at h
    cases h
    rcases Nat.lt_or_ge cap.toNat s.frameLength.toNat with hlt | hle
    · rw [State.receiveWhole_of_lt hlt, State.raise_hbuf, State.rxFlush_rxEnable_hbuf, State.issueAll_hbuf]
    · rw [State.receiveWhole_eq_drain hle]
      exact State.openAt_drain_keeps_hbuf (by omega)

/-- The commands that receive nothing write no byte of `HBUF`. -/
theorem exec_keeps_hbuf {i : Instr} {s t : State}
    (hi : ∀ d c, i ≠ .rxchunkFirst d c ∧ i ≠ .rxchunkNext d c ∧ i ≠ .rxwhole d c) (h : exec i s = .next t) :
    t.hbuf = s.hbuf := by
  cases i with
  | tx dest plen =>
    obtain ⟨payload, -, rfl⟩ := exec_tx_eq_next_iff.mp h
    obtain ⟨-, -, -, -, hhbuf, -⟩ := s.transmit_frame dest plen payload
    exact hhbuf
  | txraw hlen flen =>
    obtain ⟨frame, -, rfl⟩ := exec_txraw_eq_next_iff.mp h
    obtain ⟨-, -, -, -, hhbuf, -⟩ := s.transmitRaw_frame hlen flen frame
    exact hhbuf
  | rxwhole dst cap | rxchunkFirst dst cap | rxchunkNext dst cap =>
    obtain ⟨hfirst, hnext, hwhole⟩ := hi dst cap
    contradiction
  | rxchunkAbort => cases h; exact s.rxFlush_rxEnable_hbuf
  | txres | poll | rds | wrs | rdl | wrl => cases h; rfl

/-- Settles O39: a chunk is a `Drain`, a whole frame its length byte and a `Drain`, and no other command writes `HBUF`. -/
theorem receptionStaysInsideTheCapacity : Obligations.ReceptionStaysInsideTheCapacity := by
  refine fun dst cap j s t => ⟨?_, exec_rxwhole_keeps_hbuf, fun i => exec_keeps_hbuf⟩
  rintro (h | h)
  · exact exec_rxchunkFirst_keeps_hbuf h
  · exact exec_rxchunkNext_keeps_hbuf h

/-! ## How many transactions a command issues (R246) -/

/-- A command that ends having appended `es` to the trace has issued as many transactions as `es` holds. -/
theorem Issues.of_trace_eq {o : Out} {s t : State} {es : List BusEvent} {n : Nat} (ho : o = .next t)
    (htrace : t.trace = s.trace ++ es) (hlen : es.length = n) : Issues o s n :=
  ⟨t, ho, by rw [htrace, List.length_append, hlen]⟩

/-- An exception issues nothing (R10). -/
theorem Issues.of_raise {o : Out} {s : State} {st : Status} {b : Byte} (ho : o = .next (s.raise st b)) : Issues o s 0 :=
  ⟨_, ho, rfl⟩

theorem exec_tx_issues {dest : BitVec 16} {plen : BitVec 8} {s t : State} (h : exec (.tx dest plen) s = .next t) :
    Issues (.next t) s (17 + plen.toNat) := by
  obtain ⟨payload, hslice, rfl⟩ := exec_tx_eq_next_iff.mp h
  obtain ⟨hlen, -⟩ := hbufSlice_eq_some.mp hslice
  obtain ⟨sL, sH, pL, pH, b, -, hend⟩ := s.transmit_spec dest plen payload
  rw [hend, ← hlen]
  exact .of_trace_eq rfl (State.issueAll_trace ..) (txEvents_length ..)

theorem exec_txraw_issues {hlen flen : BitVec 8} {s t : State} (h : exec (.txraw hlen flen) s = .next t) :
    Issues (.next t) s (6 + flen.toNat) := by
  obtain ⟨frame, hslice, rfl⟩ := exec_txraw_eq_next_iff.mp h
  obtain ⟨hlength, -⟩ := hbufSlice_eq_some.mp hslice
  obtain ⟨a, b, -, hend⟩ := s.transmitRaw_spec hlen flen frame
  rw [hend, ← hlength]
  exact .of_trace_eq rfl (State.issueAll_trace ..) (txrawEvents_length ..)

/-- The session just opened and its first `Drain`: the three transactions up to the length byte, then those of the `Drain`. -/
theorem State.openAt_drain_trace_length (s : State) (dst p : BitVec 9) (c : Nat) :
    ((s.openAt dst).drain p c).trace.length =
      s.trace.length + (3 + min s.frameLength.toNat c + (if s.frameLength.toNat ≤ c then 6 else 0)) := by
  obtain ⟨es, _, _, _, hlen, htrace, -⟩ := (s.openAt dst).drain_issues p c
  rw [State.openAt_sessRem] at hlen
  rw [htrace, State.openAt_trace, List.length_append, List.length_append, s.lengthEvents_length, hlen]
  omega

theorem exec_rxwhole_issues {s : State} (dst cap : BitVec 9) (hs : s.sessOpen = false) :
    Issues (exec (.rxwhole dst cap) s) s (if cap.toNat < s.frameLength.toNat then 7 else 9 + s.frameLength.toNat) := by
  refine ⟨_, exec_rxwhole_of_idle dst cap hs, ?_⟩
  rcases Nat.lt_or_ge cap.toNat s.frameLength.toNat with hlt | hle
  · obtain ⟨f, e, -, hissued⟩ := (s.issueAll s.lengthEvents).rxFlush_rxEnable
    rw [if_pos hlt, State.receiveWhole_of_lt hlt, State.raise_trace, hissued, State.issueAll_trace, State.issueAll_trace,
      List.length_append, List.length_append, s.lengthEvents_length, flushEnableEvents_length]
  · rw [if_neg (Nat.not_lt.mpr hle), State.receiveWhole_eq_drain hle]
    dsimp only
    rw [State.openAt_drain_trace_length, if_pos le_rfl, Nat.min_self]
    omega

theorem exec_rxchunkFirst_issues {s : State} (dst : BitVec 9) {cap : BitVec 9} (hs : s.sessOpen = false) (hcap : cap ≠ 0#9) :
    Issues (exec (.rxchunkFirst dst cap) s) s
      (3 + min s.frameLength.toNat (cap.toNat - 1) + (if s.frameLength.toNat ≤ cap.toNat - 1 then 6 else 0)) :=
  ⟨_, exec_rxchunkFirst_of_room dst hs hcap, s.openAt_drain_trace_length ..⟩

theorem exec_rxchunkNext_issues {s : State} (dst cap : BitVec 9) (hs : s.sessOpen = true) :
    Issues (exec (.rxchunkNext dst cap) s) s
      (min s.sessRem.toNat cap.toNat + (if s.sessRem.toNat ≤ cap.toNat then 6 else 0)) := by
  obtain ⟨es, _, _, _, hlen, htrace, -⟩ := s.drain_issues dst cap.toNat
  exact .of_trace_eq (exec_rxchunkNext_of_open dst cap hs) htrace hlen

/-- Settles O46: one lemma a row; one transaction is read off the end state, none off an exception, and the bytes exchanged off
the calls of R99. -/
theorem transactionsPerCommand : Obligations.TransactionsPerCommand := by
  refine ⟨fun s addr data => ?single, fun s t dest plen => exec_tx_issues, fun s t hlen flen => exec_txraw_issues,
    fun s dst cap hs => ?idle, fun s dst cap hs => ?receiving,
    fun s first dst cap => ⟨_, rfl, exec_rxchunkAbort_trace_length (first := first) (dst := dst) (cap := cap) rfl⟩,
    fun s w hillegal hb => ?illegal, fun p e => ?exchanges⟩
  case single =>
    refine ⟨?_, ?_, ?_, ?_, ?_, ?_⟩ <;> exact .of_trace_eq rfl rfl rfl
  case idle =>
    refine ⟨exec_rxwhole_issues dst cap hs, exec_rxchunkFirst_issues dst hs, ?_, .of_raise (exec_rxchunkNext_of_idle dst cap hs)⟩
    rintro rfl
    exact .of_raise (exec_rxchunkFirst_of_zero dst hs)
  case receiving =>
    exact ⟨exec_rxchunkNext_issues dst cap hs, .of_raise (exec_rxwhole_of_open dst cap hs),
      .of_raise (exec_rxchunkFirst_of_open dst cap hs)⟩
  case illegal =>
    obtain ⟨hraises, -⟩ := illegalWordsOnlyRaise
    exact ⟨_, hraises w s hillegal hb, rfl⟩
  case exchanges =>
    obtain ⟨loc, v⟩ | ⟨loc, v⟩ := e <;> cases loc <;> rfl

end Sys2Proof.Machine
end
